-- ==== Sys2Proof/Word.lean ====
section
/-! DEFINITION. The word types of the GF(2^8) S-box core (spec/00_scope.md R4, R5, R8): every value is an unsigned
bit vector of a stated width, bit 0 the least significant. -/

namespace Sys2Proof

/-- A byte: field element, rotation operand, table index and table value alike (R8). -/
abbrev Byte := BitVec 8

/-- A command word, one indivisible 32-bit value (R42, R60). -/
abbrev Word := BitVec 32

/-- A modulus polynomial as it is presented: nine bits, bit `k` the coefficient of `x^k`, bit 8 not forced (R9, R63). -/
abbrev Modulus := BitVec 9

/-- The contents of `STATUS`, six independent one-bit flags (R24). -/
abbrev StatusWord := BitVec 6

/-- The shift field of ROTL, 0 to 15 (R61). -/
abbrev ShiftField := BitVec 4

end Sys2Proof
end

