-- ==== Sys2Proof/Config.lean ====
section
/-! DEFINITION. What is fixed for this hardware (spec/00_scope.md R4) and what each implementation picks (R5): the
latency parameters are constants without a body, so that nothing can depend on a value of theirs. -/

namespace Sys2Proof.Config

/-- The entries of each table (R4, R40). -/
abbrev tableSize : Nat := 256

/-- The iterations of the field multiplier (R4, R90). -/
abbrev mulIterations : Nat := 8

/-- The first candidate of the inverse search (R4, R105). -/
abbrev firstCandidate : Nat := 1

/-- The last candidate of the inverse search (R4, R105). -/
abbrev lastCandidate : Nat := 255

/-- The named latency parameters `LAT_ROTL` to `LAT_SYS` (R5). -/
inductive LatencyName where
  | latRotl
  | latGfmul
  | latGfinv
  | latAffine
  | latSboxgen
  | latLd
  | latSys
deriving DecidableEq, Repr

/-- The clock cycles from acceptance to completion: a positive number the implementation picks, which may depend on
the operands and so on the command word (R5, R178). UNCONSTRAINED: no body, and no definition of the machine reads it,
since a command is one step and the model has no time (log entry 6). -/
opaque latency : LatencyName → Word → PNat

end Sys2Proof.Config
end

