-- ==== Sys2Proof/Syntax.lean ====
section
/-! DEFINITION. The nine commands of GFSB-1 (spec/30_encoding.md R64), one constructor per row of the opcode map, the
operands in the order of the decoder's outcomes (R71). Every operand carries its field's width in its type (R61, R63),
so no term of this type is outside the encoding. -/

namespace Sys2Proof

inductive Instr where
  /-- `NOP` (R140). -/
  | nop
  /-- `ROTL x, s`: rotate a byte left (R82). -/
  | rotl (s : ShiftField) (x : Byte)
  /-- `GFMUL a, b, m`: multiply under a modulus (R93). -/
  | gfmul (m : Modulus) (a b : Byte)
  /-- `GFINV x, m`: find the inverse under a modulus (R108). -/
  | gfinv (m : Modulus) (x : Byte)
  /-- `AFFINE x, c`: the affine transform of a byte (R117). -/
  | affine (c x : Byte)
  /-- `SBOXGEN m, c`: generate both tables (R120). -/
  | sboxgen (m : Modulus) (c : Byte)
  /-- `LDS idx`: load one S-box entry (R123). -/
  | lds (idx : Byte)
  /-- `LDI idx`: load one inverse-S-box entry (R124). -/
  | ldi (idx : Byte)
  /-- `CLRF`: clear the error flags (R141). -/
  | clrf
deriving DecidableEq, Repr

end Sys2Proof
end

