-- ==== Sys2Proof/Decode.lean ====
section
/-! DEFINITION. The command word (spec/30_encoding.md R60 to R71): its fields, the opcode map, the total decoder and
the encoder. -/

namespace Sys2Proof

/-- Field `op`, `W[31:28]` (R61). -/
def opField (w : Word) : BitVec 4 := w.extractLsb' 28 4

/-- Field `m`, `W[24:16]`, taken as presented (R61, R63). -/
def modulusField (w : Word) : Modulus := w.extractLsb' 16 9

/-- Field `hi`, `W[15:8]`: `a` of GFMUL, `c` of AFFINE and SBOXGEN (R61). -/
def hiField (w : Word) : Byte := w.extractLsb' 8 8

/-- Field `s`, `W[11:8]`, of ROTL (R61). -/
def shiftField (w : Word) : ShiftField := w.extractLsb' 8 4

/-- Field `lo`, `W[7:0]`: `x`, `b` or `idx` (R61). -/
def loField (w : Word) : Byte := w.extractLsb' 0 8

/-- One row of the opcode map: a word encodes the row's command exactly when `(W AND mask) = pattern` (R64). -/
structure OpcodeRow where
  mnemonic : String
  mask : Word
  pattern : Word
deriving DecidableEq, Repr

/-- The word is one of the row's (R64). -/
def OpcodeRow.holds (row : OpcodeRow) (w : Word) : Bool := (w &&& row.mask) == row.pattern

def rowNop : OpcodeRow := ⟨"NOP", 0xFFFFFFFF, 0x00000000⟩
def rowRotl : OpcodeRow := ⟨"ROTL", 0xFFFFF000, 0x10000000⟩
def rowGfmul : OpcodeRow := ⟨"GFMUL", 0xFE000000, 0x20000000⟩
def rowGfinv : OpcodeRow := ⟨"GFINV", 0xFE00FF00, 0x30000000⟩
def rowAffine : OpcodeRow := ⟨"AFFINE", 0xFFFF0000, 0x40000000⟩
def rowSboxgen : OpcodeRow := ⟨"SBOXGEN", 0xFE0000FF, 0x50000000⟩
def rowLds : OpcodeRow := ⟨"LDS", 0xFFFFFF00, 0x60000000⟩
def rowLdi : OpcodeRow := ⟨"LDI", 0xFFFFFF00, 0x70000000⟩
def rowClrf : OpcodeRow := ⟨"CLRF", 0xFFFFFFFF, 0x80000000⟩

/-- The opcode map (R64). -/
def opcodeMap : List OpcodeRow :=
  [rowNop, rowRotl, rowGfmul, rowGfinv, rowAffine, rowSboxgen, rowLds, rowLdi, rowClrf]

/-- The opcode-map row of a command. -/
def Instr.row : Instr → OpcodeRow
  | .nop => rowNop
  | .rotl _ _ => rowRotl
  | .gfmul _ _ _ => rowGfmul
  | .gfinv _ _ => rowGfinv
  | .affine _ _ => rowAffine
  | .sboxgen _ _ => rowSboxgen
  | .lds _ => rowLds
  | .ldi _ => rowLdi
  | .clrf => rowClrf

/-- Why a word is illegal. The core records neither reason: both set `ILL` and nothing else (R67, R151). -/
inductive IllegalWord where
  /-- `op` is `0x9` to `0xF` (R66). -/
  | reservedOpcode
  /-- `op` names a command and a bit that its format reserves is 1 (R65). -/
  | reservedBitSet
deriving DecidableEq, Repr

/-- The outcomes of decoding: the nine commands, or `ILLEGAL` (R71). -/
inductive Decoded where
  | command (i : Instr)
  | illegal (why : IllegalWord)
deriving DecidableEq, Repr

/-- The reason for which a word that matches no row is illegal (R65, R66). -/
def illegalReason (w : Word) : IllegalWord :=
  if (opField w).toNat ≤ 8 then .reservedBitSet else .reservedOpcode

/-- The decoder, total on words and reading no state (R71). -/
def decode (w : Word) : Decoded :=
  if rowNop.holds w then .command .nop
  else if rowRotl.holds w then .command (.rotl (shiftField w) (loField w))
  else if rowGfmul.holds w then .command (.gfmul (modulusField w) (hiField w) (loField w))
  else if rowGfinv.holds w then .command (.gfinv (modulusField w) (loField w))
  else if rowAffine.holds w then .command (.affine (hiField w) (loField w))
  else if rowSboxgen.holds w then .command (.sboxgen (modulusField w) (hiField w))
  else if rowLds.holds w then .command (.lds (loField w))
  else if rowLdi.holds w then .command (.ldi (loField w))
  else if rowClrf.holds w then .command .clrf
  else .illegal (illegalReason w)

/-- The command of a decoding outcome, if there is one. -/
def Decoded.instr? : Decoded → Option Instr
  | .command i => some i
  | .illegal _ => none

/-- The encoder: the row's pattern with every operand at its place (R71, R72). -/
def encode : Instr → Word
  | .nop => rowNop.pattern
  | .rotl s x => rowRotl.pattern ||| (s.setWidth 32 <<< 8) ||| x.setWidth 32
  | .gfmul m a b => rowGfmul.pattern ||| (m.setWidth 32 <<< 16) ||| (a.setWidth 32 <<< 8) ||| b.setWidth 32
  | .gfinv m x => rowGfinv.pattern ||| (m.setWidth 32 <<< 16) ||| x.setWidth 32
  | .affine c x => rowAffine.pattern ||| (c.setWidth 32 <<< 8) ||| x.setWidth 32
  | .sboxgen m c => rowSboxgen.pattern ||| (m.setWidth 32 <<< 16) ||| (c.setWidth 32 <<< 8)
  | .lds idx => rowLds.pattern ||| idx.setWidth 32
  | .ldi idx => rowLdi.pattern ||| idx.setWidth 32
  | .clrf => rowClrf.pattern

/-- The latency parameter that names a command's cycles (R5; that LDS and LDI share `LAT_LD` and NOP and CLRF share
`LAT_SYS` is DEDUCED from the names, log entry 6). -/
def Instr.latencyName : Instr → Config.LatencyName
  | .nop => .latSys
  | .rotl _ _ => .latRotl
  | .gfmul _ _ _ => .latGfmul
  | .gfinv _ _ => .latGfinv
  | .affine _ _ => .latAffine
  | .sboxgen _ _ => .latSboxgen
  | .lds _ => .latLd
  | .ldi _ => .latLd
  | .clrf => .latSys

/-- The command word whose low `nbits` bits are those of `w` and whose other bits are 0. -/
def tableWord (nbits w : Nat) : Word := BitVec.ofNat 32 (w % 2 ^ nbits)

/-- The command that the decoder reads from a row's word; a command word is indivisible, so no byte order enters (R42). -/
def decodeTableWord (nbits w : Nat) : Option Instr := (decode (tableWord nbits w)).instr?

end Sys2Proof
end

