-- ==== Sys2Proof/Machine/State.lean ====
section
/-! DEFINITION. The state of the core (spec/10_state.md R20) with the host's side of the command port (R38), and the
reasons a step can stop. -/

namespace Sys2Proof.Machine

/-- A table memory: the cells that hold a value, as (index, byte) pairs, indexes strictly rising. A cell that is not
listed holds NO value: the contents after reset are unspecified (R34), and "a model may therefore hold any value there,
or none" (DESIGN CHOICE none, log entry 2). -/
abbrev Memory := List Host.Cell

/-- The two address spaces (spec/20_memory.md R40). -/
inductive Table where
  | sbox
  | isbox
deriving DecidableEq, Repr

/-- What the host drives on the input ports at one rising edge of `clk` at which no command is in progress (R38). -/
structure PortSample where
  /-- Reset, active high (spec/70_reset_and_hazards.md R170). -/
  rst : Bool
  /-- A command word is presented. -/
  cmdValid : Bool
  /-- The word presented. -/
  cmdWord : Word
deriving DecidableEq, Repr

/-- The machine's state: the six items of R20, and the host's coming input, which is not state of the core. -/
structure State where
  /-- `R`, the result register (R21). -/
  r : Byte
  /-- `STATUS` (R24). -/
  status : StatusWord
  /-- `GMOD`, the modulus of the present tables (R31). -/
  gmod : Modulus
  /-- `GCONST`, the constant of the present tables (R32). -/
  gconst : Byte
  /-- `SBOX` (R34). -/
  sbox : Memory
  /-- `ISBOX` (R34). -/
  isbox : Memory
  /-- The MODEL'S OWN field: what the host will drive at the coming edges, the next first (log entry 1). -/
  inputs : List PortSample
deriving DecidableEq, Repr

/-- Reasons for which a step stops with a fault. The spec's own rejections (`ILL`, `RNG`, `NV`) are none of them: the
core records them in `STATUS` and goes on (spec/60_exceptions.md R150). -/
inductive Fault where
  /-- Raised by LDS and LDI alone, when `STATUS.TV` is 1 and the cell read holds no value. SAFE, and in no state that a
  run from reset reaches: SBOXGEN alone sets `TV`, and it writes every cell first (R25, R120; log entry 2). -/
  | cellWithoutValue (t : Table) (idx : Byte)
deriving DecidableEq, Repr

/-- Reasons for which an instruction is refused. -/
inductive Refusal where
  /-- Raised by no arm of this model, since every command has its meaning; it would be SAFE. -/
  | notModelled (mnemonic : String)
deriving DecidableEq, Repr

/-- The machine right after reset (R37): registers zero, no cell of a table with a value, nothing presented yet. -/
def State.reset : State where
  r := 0x00
  status := 0b000000
  gmod := 0x000
  gconst := 0x00
  sbox := []
  isbox := []
  inputs := []

end Sys2Proof.Machine
end

