-- ==== Sys2Proof/Machine/Flags.lean ====
section
/-! DEFINITION. The flags of `STATUS` (spec/10_state.md R24 to R30) and the ways a command changes them. -/

namespace Sys2Proof.Machine

/-- The flags of `STATUS` (R24). -/
inductive Flag where
  | tv
  | ill
  | rng
  | noinv
  | coll
  | nv
deriving DecidableEq, Repr

/-- A flag's bit position, which is also its code (R24; spec/60_exceptions.md R151). -/
def Flag.bit : Flag → Nat
  | .tv => 0
  | .ill => 1
  | .rng => 2
  | .noinv => 3
  | .coll => 4
  | .nv => 5

/-- The word with that flag's bit alone. -/
def Flag.mask (f : Flag) : StatusWord := BitVec.twoPow 6 f.bit

/-- The five sticky error flags; `TV` is a state flag (R24). -/
def errorFlags : List Flag := [.ill, .rng, .noinv, .coll, .nv]

/-- A flag read from a status word. -/
def flagOf (st : StatusWord) (f : Flag) : Bool := st.getLsbD f.bit

/-- `STATUS.F <- 1`; a flag that is already 1 stays 1 (R24). -/
def setFlagIn (st : StatusWord) (f : Flag) : StatusWord := st ||| f.mask

/-- CLRF's write: bits 5 to 1 become 0, `TV` stays (spec/44_system_commands.md R141). -/
def clearErrorFlagsIn (st : StatusWord) : StatusWord := st &&& Flag.tv.mask

/-- `STATUS.F` read. -/
def State.flag (s : State) (f : Flag) : Bool := flagOf s.status f

/-- `STATUS.F <- 1`. -/
def State.setFlag (s : State) (f : Flag) : State := { s with status := setFlagIn s.status f }

/-- `if c then STATUS.F <- 1`: a warning, which suppresses nothing (spec/60_exceptions.md R150). -/
def State.warnIf (s : State) (c : Bool) (f : Flag) : State := if c then s.setFlag f else s

/-- The five error flags cleared, all together (R141). -/
def State.clearErrors (s : State) : State := { s with status := clearErrorFlagsIn s.status }

end Sys2Proof.Machine
end

