-- ==== Sys2Proof/Machine/Operands.lean ====
section
/-! DEFINITION. The operand forms. Every operand is the unsigned value of its field, used as it stands
(spec/30_encoding.md R63); what is left to say is which shift counts are in the domain of the rotation, how a byte
indexes a table, how a byte enters the nine-bit multiplier, and the values a loop runs over. -/

namespace Sys2Proof.Machine

/-- A shift count in the domain of `rotl8`, 1 to 7. No other count can be given to it, as the function is not defined
there (spec/40_bit_rotation.md R80, R81). -/
structure ShiftCount where
  n : Nat
  pos : 1 ≤ n
  le_seven : n ≤ 7
deriving DecidableEq, Repr

/-- ROTL's guard: the shift count of the field, none for 0 and for 8 to 15 (R82). -/
def shiftCount? (s : ShiftField) : Option ShiftCount :=
  if h : 1 ≤ s.toNat ∧ s.toNat ≤ 7 then some ⟨s.toNat, h.1, h.2⟩ else none

/-- A byte as a table index: itself, no base, offset or scaling (spec/43_sbox_generator.md R123). -/
def tableIndex (k : Byte) : Nat := k.toNat

/-- `zext_9` (spec/00_scope.md R8). -/
def zext9 (a : Byte) : BitVec 9 := a.setWidth 9

/-- The bytes `a` to `b` inclusive, ascending (the `for` of R8), for `b` up to 255. -/
def bytesFromTo (a b : Nat) : List Byte := (List.range' a (b + 1 - a)).map (BitVec.ofNat 8)

/-- The table indexes 0 to 255, ascending. -/
def allBytes : List Byte := bytesFromTo 0 (Config.tableSize - 1)

end Sys2Proof.Machine
end

