-- ==== Sys2Proof/Machine/Ops.lean ====
section
/-! DEFINITION. The named operations over registers and table memories, the one error mechanism (`raise`), reset, and
the host's input at a rising edge. -/

namespace Sys2Proof.Machine

/-- What an instruction's meaning answers. -/
abbrev Result := Host.Outcome State Fault Refusal

/-! ## Table memory: one access width, one byte (spec/20_memory.md R42 to R45) -/

/-- The byte at an index, none where the cell holds no value. -/
def Memory.read : Memory → Nat → Option Byte
  | [], _ => none
  | (b, v) :: rest, a => if a = b then some v else Memory.read rest a

/-- Writing one cell, the indexes kept strictly rising. -/
def Memory.write : Memory → Nat → Byte → Memory
  | [], a, v => [(a, v)]
  | (b, w) :: rest, a, v =>
    if a < b then (a, v) :: (b, w) :: rest
    else if a = b then (a, v) :: rest
    else (b, w) :: Memory.write rest a v

/-- The cells' indexes rise strictly from `lo` on and stay inside the table. -/
def Memory.risingFrom : Nat → Memory → Bool
  | _, [] => true
  | lo, (a, _) :: rest => decide (lo ≤ a) && decide (a < Config.tableSize) && Memory.risingFrom (a + 1) rest

/-- The canonical form: indexes strictly rising, all in 0 to 255. No entry can equal what an unlisted index reads as,
since that is no value. -/
def Memory.wf (t : Memory) : Bool := Memory.risingFrom 0 t

/-- One of the two tables (R40: two separate spaces). -/
def State.table (s : State) : Table → Memory
  | .sbox => s.sbox
  | .isbox => s.isbox

/-- A state with one table replaced. -/
def State.withTable (s : State) (t : Table) (x : Memory) : State :=
  match t with
  | .sbox => { s with sbox := x }
  | .isbox => { s with isbox := x }

/-- `MemRead(T, k, 1)` (R8). -/
def State.memRead (s : State) (t : Table) (k : Byte) : Option Byte := (s.table t).read (tableIndex k)

/-- `MemWrite(T, k, 1, v)` (R8). -/
def State.memWrite (s : State) (t : Table) (k v : Byte) : State :=
  s.withTable t ((s.table t).write (tableIndex k) v)

/-! ## Registers -/

/-- `R <- v` (R21). -/
def State.writeR (s : State) (v : Byte) : State := { s with r := v }

/-- `GMOD <- m` and `GCONST <- c`, at the completion of SBOXGEN alone (R31, R32). -/
def State.recordParams (s : State) (m : Modulus) (c : Byte) : State := { s with gmod := m, gconst := c }

/-! ## Completion and rejection (spec/60_exceptions.md R150) -/

/-- A byte-valued command completes with its result in `R`. -/
def complete (v : Byte) (s : State) : Result := .next (s.writeR v)

/-- `raise F`: the flag is set and NO other write happens. There is no trap, so nothing is saved, no control flow
changes and there is no return (R150, R161): the next command runs as usual. This is the core's one way of taking an
error. -/
def raise (f : Flag) (s : State) : Result := .next (s.setFlag f)

/-- The load shared by LDS and LDI: rejected while `TV` is 0, else the cell goes to `R` (R123, R124). A cell without a
value, which no run from reset meets under `TV`, stops by name (log entry 2). -/
def loadFrom (t : Table) (idx : Byte) (s : State) : Result :=
  if s.flag .tv then
    match s.memRead t idx with
    | some v => complete v s
    | none => .fault (.cellWithoutValue t idx)
  else raise .nv s

/-! ## Reset and the host's input (spec/10_state.md R38; spec/70_reset_and_hazards.md R170) -/

/-- Reset replaces the whole state of the core by the reset state; what the host will drive next is the host's. -/
def State.applyReset (s : State) : State := { State.reset with inputs := s.inputs }

/-- What one edge brings to the command level. -/
inductive PortEvent where
  /-- Nothing accepted. -/
  | idle
  /-- Reset sampled. -/
  | reset
  /-- A command word accepted. -/
  | accept (w : Word)
deriving DecidableEq, Repr

/-- `cmd_ready` at an edge between commands: no command is in progress, so 1 exactly when `rst` is 0 (R38, R170). -/
def cmdReady (p : PortSample) : Bool := !p.rst

/-- Reset overrides everything; a word is accepted when `rst = 0`, `cmd_valid = 1` and `cmd_ready = 1` (R38, R170). -/
def portEvent (p : PortSample) : PortEvent :=
  if p.rst then .reset
  else if p.cmdValid && cmdReady p then .accept p.cmdWord
  else .idle

/-- A sample that presents one command word. -/
def present (w : Word) : PortSample := ⟨false, true, w⟩

/-- The next edge's event and the state once it is taken from the input; with nothing driven the core idles and keeps
all state (spec/60_exceptions.md R164). -/
def State.takeEvent (s : State) : PortEvent × State :=
  match s.inputs with
  | [] => (.idle, s)
  | p :: rest => (portEvent p, { s with inputs := rest })

/-- What the output ports show between commands: `r_out`, `status_out`, `gmod_out`, `gconst_out` (R38, R39). -/
structure Observation where
  rOut : Byte
  statusOut : StatusWord
  gmodOut : Modulus
  gconstOut : Byte
deriving DecidableEq, Repr

/-- The host's observation of a state (R39): the tables have no port. -/
def State.observe (s : State) : Observation := ⟨s.r, s.status, s.gmod, s.gconst⟩

end Sys2Proof.Machine
end

