-- ==== Sys2Proof/Machine/Rotate.lean ====
section
/-! DEFINITION. Bit rotation and the ROTL command (spec/40_bit_rotation.md). -/

namespace Sys2Proof.Machine

/-- `rotl8(x, s) = ((x << s) AND 0xFF) OR (x >> (8 - s))` for `s` in 1 to 7; the byte's width is the mask (R80). -/
def rotl8 (x : Byte) (s : ShiftCount) : Byte := (x <<< s.n) ||| (x >>> (8 - s.n))

/-- ROTL (R82): a shift field outside 1 to 7 is rejected with `RNG`. -/
def execRotl (sh : ShiftField) (x : Byte) (s : State) : Result :=
  match shiftCount? sh with
  | some n => complete (rotl8 x n) s
  | none => raise .rng s

end Sys2Proof.Machine
end

