-- ==== Sys2Proof/Machine/Affine.lean ====
section
/-! DEFINITION. The affine transform and the AFFINE command (spec/43_sbox_generator.md R115 to R117). -/

namespace Sys2Proof.Machine

/-- The shift counts that the core applies by itself (spec/00_scope.md R4). -/
def shift1 : ShiftCount := ⟨1, by decide, by decide⟩
def shift2 : ShiftCount := ⟨2, by decide, by decide⟩
def shift3 : ShiftCount := ⟨3, by decide, by decide⟩
def shift4 : ShiftCount := ⟨4, by decide, by decide⟩

/-- `lin(v)`: the XOR of the value and its four rotations, for every byte, 0 included (R115). -/
def lin (v : Byte) : Byte := v ^^^ rotl8 v shift1 ^^^ rotl8 v shift2 ^^^ rotl8 v shift3 ^^^ rotl8 v shift4

/-- `affine(v, c) = lin(v) XOR c` (R116). -/
def affine (v c : Byte) : Byte := lin v ^^^ c

/-- AFFINE (R117): the byte as it stands, no inversion. -/
def execAffine (c x : Byte) (s : State) : Result := complete (affine x c) s

end Sys2Proof.Machine
end

