-- ==== Sys2Proof/Machine/FieldMul.lean ====
section
/-! DEFINITION. The field multiplier with polynomial reduction and the GFMUL command (spec/41_field_multiplier.md). -/

namespace Sys2Proof.Machine

/-- The multiplier's working registers (spec/10_state.md R35). -/
structure MulWork where
  /-- The accumulating result. -/
  acc : BitVec 9
  /-- The shifting copy of `a`. -/
  av : BitVec 9
  /-- The copy of `b` that is consumed. -/
  bv : Byte
deriving DecidableEq, Repr

/-- Steps 2 and 3: shift left by one in nine bits, and reduce when the shift set bit 8 (R90, R91). -/
def shiftReduce (m : Modulus) (av : BitVec 9) : BitVec 9 :=
  if (av <<< 1).getLsbD 8 then (av <<< 1) ^^^ m else av <<< 1

/-- One iteration: the add uses `av` before this iteration's shift (R90). -/
def mulIteration (m : Modulus) (w : MulWork) : MulWork where
  acc := if w.bv.getLsbD 0 then w.acc ^^^ w.av else w.acc
  av := shiftReduce m w.av
  bv := w.bv >>> 1

/-- The working registers at the start (R90). -/
def mulStart (a b : Byte) : MulWork := ⟨0, zext9 a, b⟩

/-- The working registers after `k` iterations, that is at the top of iteration `k`. -/
def mulRun (m : Modulus) (w : MulWork) : Nat → MulWork
  | 0 => w
  | k + 1 => mulIteration m (mulRun m w k)

/-- `gfmul(a, b, m)`: exactly eight iterations, then the low eight bits (R90). -/
def gfmul (a b : Byte) (m : Modulus) : Byte := (mulRun m (mulStart a b) Config.mulIterations).acc.setWidth 8

/-- GFMUL (R93): never rejected, for any modulus. -/
def execGfmul (m : Modulus) (a b : Byte) (s : State) : Result := complete (gfmul a b m) s

end Sys2Proof.Machine
end

