-- ==== Sys2Proof/Machine/FieldInv.lean ====
section
/-! DEFINITION. The multiplicative-inverse finder and the GFINV command (spec/42_inverse_finder.md). -/

namespace Sys2Proof.Machine

/-- The candidates 1 to 255 in ascending order; 0 is never tried (R105). -/
def candidates : List Byte := bytesFromTo Config.firstCandidate Config.lastCandidate

/-- The search: the first candidate whose product with `x` is 1, none if no candidate has it (R105; the option-typed
twin that spec/93_implementation_defined.md U10 allows). -/
def findInverse (x : Byte) (m : Modulus) : Option Byte := candidates.find? fun y => gfmul x y m == 1

/-- `gfinv(x, m)`: the inverse found, or the sentinel 0 (R105). -/
def gfinv (x : Byte) (m : Modulus) : Byte := (findInverse x m).getD 0x00

/-- The condition of `NOINV`: a nonzero input for which the search ended with the sentinel (R28, R155). -/
def lacksInverse (x : Byte) (m : Modulus) : Bool := x != 0 && gfinv x m == 0

/-- GFINV (R108): `R` is written in every case; the warning accompanies the completed command. -/
def execGfinv (m : Modulus) (x : Byte) (s : State) : Result :=
  complete (gfinv x m) (s.warnIf (lacksInverse x m) .noinv)

end Sys2Proof.Machine
end

