-- ==== Sys2Proof/Machine/SboxGen.lean ====
section
/-! DEFINITION. The S-box generator as a pure function (spec/43_sbox_generator.md R118) and the SBOXGEN command (R120),
each from its own pseudocode. -/

namespace Sys2Proof.Machine

/-- The pair of sequences that the generator computes (R118). -/
structure TablePair where
  sbox : Memory
  isbox : Memory
deriving DecidableEq, Repr

/-- A table of 256 zeros, written in ascending order over what was there. -/
def zeroFill (t : Memory) : Memory := allBytes.foldl (fun t k => t.write (tableIndex k) 0x00) t

/-- Steps 1 to 4 of one iteration (R118). -/
def genIteration (m : Modulus) (c : Byte) (t : TablePair) (i : Byte) : TablePair :=
  let iv := gfinv i m
  let v := if iv = 0 then c else lin iv ^^^ c
  { sbox := t.sbox.write (tableIndex i) v
    isbox := t.isbox.write (tableIndex v) i }

/-- `gen(m, c)` (R118): every slot of the inverse table starts at zero; the source does not say what the S-box holds
before the loop, so nothing is there. -/
def gen (m : Modulus) (c : Byte) : TablePair := allBytes.foldl (genIteration m c) ⟨[], zeroFill []⟩

/-- SBOXGEN's working state: the machine, and the hidden map of `ISBOX` indexes that this SBOXGEN has written
(spec/10_state.md R35). -/
structure GenWork where
  machine : State
  /-- Bit `k` is `written[k]`. -/
  written : BitVec Config.tableSize

/-- SBOXGEN's first loop: `ISBOX` zero-filled, `written` cleared (R120). -/
def sboxgenStart (s : State) : GenWork :=
  ⟨allBytes.foldl (fun s k => s.memWrite .isbox k 0x00) s, 0⟩

/-- One iteration of SBOXGEN's second loop (R120). -/
def sboxgenIteration (m : Modulus) (c : Byte) (w : GenWork) (i : Byte) : GenWork :=
  let v := affine (gfinv i m) c
  let s1 := w.machine.warnIf (lacksInverse i m) .noinv
  let s2 := s1.memWrite .sbox i v
  let s3 := s2.warnIf (w.written.getLsbD (tableIndex v)) .coll
  { machine := s3.memWrite .isbox v i
    written := w.written ||| BitVec.twoPow Config.tableSize (tableIndex v) }

/-- The machine after SBOXGEN's two loops (R120). -/
def sboxgenLoop (m : Modulus) (c : Byte) (s : State) : State :=
  (allBytes.foldl (sboxgenIteration m c) (sboxgenStart s)).machine

/-- SBOXGEN (R120): never rejected; on completion the operands are recorded and `TV` is set. -/
def execSboxgen (m : Modulus) (c : Byte) (s : State) : Result :=
  .next (((sboxgenLoop m c s).recordParams m c).setFlag .tv)

end Sys2Proof.Machine
end

