-- ==== Sys2Proof/Machine/System.lean ====
section
/-! DEFINITION. NOP and CLRF (spec/44_system_commands.md R140, R141), and what an illegal word does (R67, R152). -/

namespace Sys2Proof.Machine

/-- NOP (R140): no write. -/
def execNop (s : State) : Result := .next s

/-- CLRF (R141): the five error flags become 0, `TV` stays. -/
def execClrf (s : State) : Result := .next s.clearErrors

/-- An accepted illegal word sets `ILL` and nothing else, whichever the reason (R67, R152). -/
def execIllegal (s : State) : Result := raise .ill s

end Sys2Proof.Machine
end

