-- ==== Sys2Proof/Machine/TableLoad.lean ====
section
/-! DEFINITION. The table reads LDS and LDI (spec/43_sbox_generator.md R123, R124). -/

namespace Sys2Proof.Machine

/-- LDS (R123). -/
def execLds (idx : Byte) (s : State) : Result := loadFrom .sbox idx s

/-- LDI (R124). -/
def execLdi (idx : Byte) (s : State) : Result := loadFrom .isbox idx s

end Sys2Proof.Machine
end

