-- ==== Sys2Proof/Machine/Dispatch.lean ====
section
/-! DEFINITION. One arm per command, each one call of its meaning. -/

namespace Sys2Proof.Machine

def exec (i : Instr) (s : State) : Host.Outcome State Fault Refusal :=
  match i with
  | .nop => Sys2Proof.Machine.execNop s
  | .rotl sh x => Sys2Proof.Machine.execRotl sh x s
  | .gfmul m a b => Sys2Proof.Machine.execGfmul m a b s
  | .gfinv m x => Sys2Proof.Machine.execGfinv m x s
  | .affine c x => Sys2Proof.Machine.execAffine c x s
  | .sboxgen m c => Sys2Proof.Machine.execSboxgen m c s
  | .lds idx => Sys2Proof.Machine.execLds idx s
  | .ldi idx => Sys2Proof.Machine.execLdi idx s
  | .clrf => Sys2Proof.Machine.execClrf s

end Sys2Proof.Machine
end

