-- ==== Sys2Proof/Machine/Step.lean ====
section
/-! DEFINITION. One step of the machine at the command level (spec/10_state.md R39): the next rising edge at which no
command is in progress, and the whole of the command accepted there, if one is. -/

namespace Sys2Proof.Machine

/-- A reset edge gives the reset state, an accepted word executes as it decodes, any other edge changes nothing. -/
def step (s : State) : Host.Outcome State Fault Refusal :=
  match s.takeEvent with
  | (.idle, s') => .next s'
  | (.reset, s') => .next s'.applyReset
  | (.accept w, s') =>
    match decode w with
    | .command i => exec i s'
    | .illegal _ => execIllegal s'

/-- The state in which the host presents that word at the next edge, before whatever it drives later. -/
def State.withFetchWord (s : State) (nbits w : Nat) : State :=
  { s with inputs := present (tableWord nbits w) :: s.inputs }

end Sys2Proof.Machine
end

