-- ==== Sys2Proof/WellFormed.lean ====
section
/-! DEFINITION. Well-formed source commands (spec/30_encoding.md R72): a command as an assembler's input gives it, its
operands plain numbers in the source's order, and the range check that decides whether it is one of the encodable
commands of `Instr`. A term of `Instr` needs no check of its own: its operands' widths are their types. -/

namespace Sys2Proof

/-- A command as written in the assembler syntax, operands in the order of R72's table. -/
inductive AsmCommand where
  | nop
  | rotl (x s : Nat)
  | gfmul (a b m : Nat)
  | gfinv (x m : Nat)
  | affine (x c : Nat)
  | sboxgen (m c : Nat)
  | lds (idx : Nat)
  | ldi (idx : Nat)
  | clrf
deriving DecidableEq, Repr

/-- `x`, `a`, `b`, `c` and `idx` are refused above 255 (R72). -/
def fitsByte (v : Nat) : Bool := v < 2 ^ 8

/-- `m` is refused above `0x1FF` (R72; spec/93_implementation_defined.md U4). -/
def fitsModulus (v : Nat) : Bool := v < 2 ^ 9

/-- `s` is refused above 15; 0 and 8 to 15 are accepted, being encodable (R72). -/
def fitsShift (v : Nat) : Bool := v < 2 ^ 4

/-- The operands of a source command all fit their fields (R72). -/
def AsmCommand.wf : AsmCommand → Bool
  | .nop => true
  | .rotl x s => fitsByte x && fitsShift s
  | .gfmul a b m => fitsByte a && fitsByte b && fitsModulus m
  | .gfinv x m => fitsByte x && fitsModulus m
  | .affine x c => fitsByte x && fitsByte c
  | .sboxgen m c => fitsModulus m && fitsByte c
  | .lds idx => fitsByte idx
  | .ldi idx => fitsByte idx
  | .clrf => true

/-- The command that a source command names once its operands are taken at their fields' widths. -/
def AsmCommand.toInstr : AsmCommand → Instr
  | .nop => .nop
  | .rotl x s => .rotl (BitVec.ofNat 4 s) (BitVec.ofNat 8 x)
  | .gfmul a b m => .gfmul (BitVec.ofNat 9 m) (BitVec.ofNat 8 a) (BitVec.ofNat 8 b)
  | .gfinv x m => .gfinv (BitVec.ofNat 9 m) (BitVec.ofNat 8 x)
  | .affine x c => .affine (BitVec.ofNat 8 c) (BitVec.ofNat 8 x)
  | .sboxgen m c => .sboxgen (BitVec.ofNat 9 m) (BitVec.ofNat 8 c)
  | .lds idx => .lds (BitVec.ofNat 8 idx)
  | .ldi idx => .ldi (BitVec.ofNat 8 idx)
  | .clrf => .clrf

/-- Assembling refuses a command with an operand outside its field (R72). -/
def AsmCommand.assemble (k : AsmCommand) : Option Instr :=
  if k.wf then some k.toInstr else none

end Sys2Proof
end

