-- ==== Sys2Proof/Machine/Assembler.lean ====
section
/-! DEFINITION. The assembler syntax of spec/30_encoding.md R72, line by line: an upper-case mnemonic, operands
separated by commas, numbers in C-style hexadecimal or decimal, a `;` comment to the end of the line. There are no
pseudo-instructions (R73). No step of the machine reads this file. -/

namespace Sys2Proof.Machine

/-- Why a line is refused. -/
inductive AsmError where
  /-- The first word is none of the nine mnemonics (R72, R73). -/
  | unknownMnemonic
  /-- An operand is neither a hexadecimal nor a decimal number. -/
  | badNumber
  /-- The operand count is not the mnemonic's. -/
  | operandCount
  /-- An operand does not fit its field (R72). -/
  | operandOutOfRange
deriving DecidableEq, Repr

/-- What a line assembles to: nothing for a blank or comment line, a command, or a refusal. -/
inductive AsmLine where
  | blank
  | command (i : Instr)
  | refused (why : AsmError)
deriving DecidableEq, Repr

/-- A space or a tab. -/
def isBlankChar (ch : Char) : Bool := ch == ' ' || ch == '\t'

/-- The characters without the blanks at either end. -/
def trimBlanks (cs : List Char) : List Char :=
  ((cs.dropWhile isBlankChar).reverse.dropWhile isBlankChar).reverse

/-- A digit's value, hexadecimal digits in either case. -/
def digitValue (ch : Char) : Option Nat :=
  if '0' ≤ ch ∧ ch ≤ '9' then some (ch.toNat - '0'.toNat)
  else if 'A' ≤ ch ∧ ch ≤ 'F' then some (ch.toNat - 'A'.toNat + 10)
  else if 'a' ≤ ch ∧ ch ≤ 'f' then some (ch.toNat - 'a'.toNat + 10)
  else none

/-- Digits read in a base, most significant first, after a value already read. -/
def digitsFrom (base acc : Nat) : List Char → Option Nat
  | [] => some acc
  | ch :: rest =>
    match digitValue ch with
    | some d => if d < base then digitsFrom base (base * acc + d) rest else none
    | none => none

/-- A number in C-style hexadecimal or in decimal (R72). -/
def readNumber : List Char → Option Nat
  | [] => none
  | ['0', 'x'] => none
  | ['0', 'X'] => none
  | '0' :: 'x' :: digits => digitsFrom 16 0 digits
  | '0' :: 'X' :: digits => digitsFrom 16 0 digits
  | digits => digitsFrom 10 0 digits

/-- The pieces of a text between its commas. -/
def splitCommas : List Char → List (List Char)
  | [] => [[]]
  | ch :: rest =>
    if ch = ',' then [] :: splitCommas rest
    else
      match splitCommas rest with
      | [] => [[ch]]
      | piece :: pieces => (ch :: piece) :: pieces

/-- The operand texts after a mnemonic; no text is no operand. -/
def operandTexts (cs : List Char) : List (List Char) :=
  match trimBlanks cs with
  | [] => []
  | some_text => (splitCommas some_text).map trimBlanks

/-- Every operand text read as a number, none if one is not a number. -/
def readOperands (texts : List (List Char)) : Option (List Nat) := texts.mapM readNumber

/-- The operand count of each mnemonic (R72), none for a word that is no mnemonic. -/
def mnemonicArity (name : List Char) : Option Nat :=
  if name = "NOP".toList then some 0
  else if name = "ROTL".toList then some 2
  else if name = "GFMUL".toList then some 3
  else if name = "GFINV".toList then some 2
  else if name = "AFFINE".toList then some 2
  else if name = "SBOXGEN".toList then some 2
  else if name = "LDS".toList then some 1
  else if name = "LDI".toList then some 1
  else if name = "CLRF".toList then some 0
  else none

/-- The source command that a mnemonic and its operands name, in the operand order of R72's table. -/
def sourceCommand (name : List Char) (ops : List Nat) : Option AsmCommand :=
  match ops with
  | [] => if name = "NOP".toList then some .nop else if name = "CLRF".toList then some .clrf else none
  | [a] =>
    if name = "LDS".toList then some (.lds a) else if name = "LDI".toList then some (.ldi a) else none
  | [a, b] =>
    if name = "ROTL".toList then some (.rotl a b)
    else if name = "GFINV".toList then some (.gfinv a b)
    else if name = "AFFINE".toList then some (.affine a b)
    else if name = "SBOXGEN".toList then some (.sboxgen a b)
    else none
  | [a, b, m] => if name = "GFMUL".toList then some (.gfmul a b m) else none
  | _ => none

/-- One line of source assembled (R72). -/
def assembleLine (line : List Char) : AsmLine :=
  let text := trimBlanks (line.takeWhile (· != ';'))
  let name := text.takeWhile (fun ch => !isBlankChar ch)
  match text, mnemonicArity name, readOperands (operandTexts (text.drop name.length)) with
  | [], _, _ => .blank
  | _, none, _ => .refused .unknownMnemonic
  | _, _, none => .refused .badNumber
  | _, some _, some ops =>
    match sourceCommand name ops with
    | none => .refused .operandCount
    | some k =>
      match k.assemble with
      | none => .refused .operandOutOfRange
      | some i => .command i

end Sys2Proof.Machine
end

