-- ==== Sys2Proof/Safety.lean ====
section
/-! DEFINITION. What counts as a valid modulus, a sound state and a run without rejections: the terms that claims about
this core are stated in. -/

namespace Sys2Proof.Machine

/-- A valid modulus: bit 8 set, and every byte 1 to 255 has a multiplicative inverse (spec/00_scope.md, glossary). -/
def ValidModulus (m : Modulus) : Prop := m.getLsbD 8 = true ∧ ∀ x : Byte, x ≠ 0 → ∃ y : Byte, gfmul x y m = 1

/-- The list of valid moduli that spec/43_sbox_generator.md R127 gives. -/
def validModuli : List Modulus :=
  [0x11B, 0x11D, 0x12B, 0x12D, 0x139, 0x13F, 0x14D, 0x15F, 0x163, 0x165, 0x169, 0x171, 0x177, 0x17B, 0x187] ++
  [0x18B, 0x18D, 0x19F, 0x1A3, 0x1A9, 0x1B1, 0x1BD, 0x1C3, 0x1CF, 0x1D7, 0x1DD, 0x1E7, 0x1F3, 0x1F5, 0x1F9]

/-- The byte that a table of the generator holds at an index. -/
def TablePair.entry (t : TablePair) (tab : Table) (k : Byte) : Option Byte :=
  match tab with
  | .sbox => t.sbox.read (tableIndex k)
  | .isbox => t.isbox.read (tableIndex k)

/-- `TV` means what spec/10_state.md R25 says: the tables are those that R118 gives for the operands recorded in `GMOD`
and `GCONST`. -/
def TablesAsRecorded (s : State) : Prop :=
  s.flag .tv = true → s.sbox = (gen s.gmod s.gconst).sbox ∧ s.isbox = (gen s.gmod s.gconst).isbox

/-- The invariant of the machine: both memories in canonical form, and the tables as recorded. -/
def CoreInv (s : State) : Prop := s.sbox.wf = true ∧ s.isbox.wf = true ∧ TablesAsRecorded s

/-- The flags of the three rejections (spec/60_exceptions.md R150, R165). -/
def rejectionFlags : List Flag := [.ill, .rng, .nv]

/-- No rejection has been recorded since the last clear: the premise that R165 asks of a claim about a command stream. -/
def NoRejection (s : State) : Prop := ∀ f ∈ rejectionFlags, s.flag f = false

/-- The flags that a command's own rule names (R151, R160). -/
def raisableFlags : Instr → List Flag
  | .nop => []
  | .rotl _ _ => [.rng]
  | .gfmul _ _ _ => []
  | .gfinv _ _ => [.noinv]
  | .affine _ _ => []
  | .sboxgen _ _ => [.noinv, .coll]
  | .lds _ => [.nv]
  | .ldi _ => [.nv]
  | .clrf => []

/-! ## Statements' own terms for the multiplier -/

/-- One iteration of the source's multiplier on unbounded integers, with the reduction test as a parameter: the
registers are the accumulator, the shifting copy and the consumed copy (spec/41_field_multiplier.md R91). -/
def unboundedIteration (reduces : Nat → Bool) (m : Nat) (w : Nat × Nat × Nat) : Nat × Nat × Nat :=
  (if w.2.2.testBit 0 then w.1 ^^^ w.2.1 else w.1,
   if reduces (w.2.1 <<< 1) then (w.2.1 <<< 1) ^^^ m else w.2.1 <<< 1,
   w.2.2 >>> 1)

/-- The source's multiplier on unbounded integers, its result masked to eight bits. -/
def unboundedMul (reduces : Nat → Bool) (a b m : Nat) : Nat :=
  ((unboundedIteration reduces m)^[8] (0, a, b)).1 &&& 0xFF

/-- The test "that shift set bit 8" (R91; spec/90_conflicts.md C4: this phrasing is followed). -/
def setsBit8 (v : Nat) : Bool := v.testBit 8

/-- The test "value ≥ 0x100" (R91). -/
def atLeast0x100 (v : Nat) : Bool := decide (0x100 ≤ v)

/-- The polynomial over GF(2) that a bit vector stands for: bit `k` is the coefficient of `x^k`
(spec/00_scope.md R9). -/
noncomputable def polyOf {n : Nat} (v : BitVec n) : Polynomial (ZMod 2) :=
  ∑ k ∈ Finset.range n, if v.getLsbD k then Polynomial.X ^ k else 0

/-- The number of 1 bits of a byte. -/
def onesOf (x : Byte) : Nat := (List.range 8).countP fun k => x.getLsbD k

/-! ## Comparing two states -/

/-- Two states agree in everything but the five error flags. -/
def SameButErrorFlags (s t : State) : Prop :=
  s.r = t.r ∧ s.flag .tv = t.flag .tv ∧ s.gmod = t.gmod ∧ s.gconst = t.gconst ∧
  s.sbox = t.sbox ∧ s.isbox = t.isbox ∧ s.inputs = t.inputs

end Sys2Proof.Machine
end

