-- ==== Sys2Proof/Certificates/Slice0/Obligations.lean ====
section
/-! DEFINITION. The statements about the core, each from a numbered rule of spec/ or from the sections its docstring
names. Nothing is proved here. -/

open Sys2Proof Sys2Proof.Machine

/-! ## The step -/

/-- A step at an edge that accepts a legal word (`rst = 0`, `cmd_valid = 1`; `cmd_ready` is 1 between commands) is the
execution of the decoded command, with the edge taken from the input (R38, R39). -/
def Obligations.StepRunsAcceptedCommand : Prop :=
  ∀ (s : State) (p : PortSample) (rest : List PortSample) (i : Instr),
    s.inputs = p :: rest → p.rst = false → p.cmdValid = true → decode p.cmdWord = .command i →
    step s = exec i { s with inputs := rest }

/-- A word that matches no row of the opcode map sets `STATUS.ILL` and makes no other write (R152; R67). -/
def Obligations.IllegalWordSetsIllAlone : Prop :=
  ∀ (s : State) (p : PortSample) (rest : List PortSample),
    s.inputs = p :: rest → p.rst = false → p.cmdValid = true →
    (∀ row ∈ opcodeMap, p.cmdWord &&& row.mask ≠ row.pattern) →
    step s = .next { s with inputs := rest, status := s.status ||| 0b000010 }

/-- An edge with `rst = 0` and `cmd_valid = 0`, and a step with nothing driven at all, change nothing in the core
(R38, R164; that a step exists where nothing is driven is the model's choice, log entry 1). -/
def Obligations.IdleEdgeKeepsState : Prop :=
  ∀ s : State,
    (s.inputs = [] → step s = .next s) ∧
    (∀ (p : PortSample) (rest : List PortSample), s.inputs = p :: rest → p.rst = false → p.cmdValid = false →
      step s = .next { s with inputs := rest })

/-- An edge with `rst = 1` gives the reset values whatever else is driven, from any state (R170, R171). What the tables
hold then is the model's choice, log entry 2, and is not stated. -/
def Obligations.ResetEdgeGivesResetRegisters : Prop :=
  ∀ (s : State) (p : PortSample) (rest : List PortSample), s.inputs = p :: rest → p.rst = true →
    ∃ t, step s = .next t ∧ t.r = 0x00 ∧ t.status = 0b000000 ∧ t.gmod = 0x000 ∧ t.gconst = 0x00 ∧ t.inputs = rest

/-- The registers right after reset (R37). -/
def Obligations.ResetRegistersAreZero : Prop :=
  State.reset.r = 0x00 ∧ State.reset.status = 0b000000 ∧ State.reset.gmod = 0x000 ∧ State.reset.gconst = 0x00 ∧
  (∀ f : Flag, State.reset.flag f = false) ∧ State.reset.observe = ⟨0x00, 0b000000, 0x000, 0x00⟩

/-- Presenting a command's encoding runs that command, from any state (R39, R71). -/
def Obligations.PresentedEncodingRunsItsCommand : Prop :=
  ∀ (i : Instr) (s : State), step (s.withFetchWord 32 (encode i).toNat) = exec i s

/-- A step takes exactly one edge from the input: no command reads or writes what the host will drive (R6, R38; the
input list is the model's own field, log entry 1). -/
def Obligations.StepTakesOneEdge : Prop :=
  ∀ s t : State, step s = .next t → t.inputs = s.inputs.tail

/-! ## Encoding -/

/-- The opcode map: its rows, and that a word encodes a command exactly when it matches the command's row, the rows
being disjoint (R64). -/
def Obligations.DecoderFollowsOpcodeMap : Prop :=
  opcodeMap =
    [⟨"NOP", 0xFFFFFFFF, 0x00000000⟩, ⟨"ROTL", 0xFFFFF000, 0x10000000⟩, ⟨"GFMUL", 0xFE000000, 0x20000000⟩,
     ⟨"GFINV", 0xFE00FF00, 0x30000000⟩, ⟨"AFFINE", 0xFFFF0000, 0x40000000⟩, ⟨"SBOXGEN", 0xFE0000FF, 0x50000000⟩,
     ⟨"LDS", 0xFFFFFF00, 0x60000000⟩, ⟨"LDI", 0xFFFFFF00, 0x70000000⟩, ⟨"CLRF", 0xFFFFFFFF, 0x80000000⟩] ∧
  (∀ (w : Word) (i : Instr), decode w = .command i → w &&& i.row.mask = i.row.pattern) ∧
  (∀ (w : Word), ∀ row ∈ opcodeMap, w &&& row.mask = row.pattern → ∃ i, decode w = .command i ∧ i.row = row) ∧
  (∀ (w : Word), ∀ row ∈ opcodeMap, ∀ row' ∈ opcodeMap,
    w &&& row.mask = row.pattern → w &&& row'.mask = row'.pattern → row = row')

/-- Decoding an encoded command gives it back with every operand, and encoding a decoded word gives the word back
(R71). -/
def Obligations.DecodeAndEncodeAgree : Prop :=
  (∀ i : Instr, decode (encode i) = .command i) ∧
  (∀ (w : Word) (i : Instr), decode w = .command i → encode i = w)

/-- A word whose `op` names a command but which has a 1 in a bit that the command's format reserves is illegal, not
that command with the bit ignored; `0x10000903` is a legal ROTL, `0x10001103` is illegal (R65). A word with `op` in
`0x9` to `0xF` is illegal whatever its other bits (R66). -/
def Obligations.ReservedEncodingsAreIllegal : Prop :=
  (∀ (w : Word), ∀ row ∈ opcodeMap, w.toNat / 2 ^ 28 = row.pattern.toNat / 2 ^ 28 →
    w &&& row.mask ≠ row.pattern → ∃ why, decode w = .illegal why) ∧
  decode 0x10000903 = .command (.rotl 9 0x03) ∧ (∃ why, decode 0x10001103 = .illegal why) ∧
  (∀ w : Word, 9 ≤ w.toNat / 2 ^ 28 → ∃ why, decode w = .illegal why)

/-- Of the 2^32 words, 33,886,722 are legal (R67). -/
def Obligations.LegalWordCount : Prop :=
  Nat.card { w : Word // ∃ i, decode w = .command i } = 33886722

/-- One word of each command, written out from R62's patterns, decodes to it. -/
def Obligations.WrittenWordsDecode : Prop :=
  decode 0b00000000000000000000000000000000 = .command .nop ∧
  decode 0b00010000000000000000000110000001 = .command (.rotl 1 0x81) ∧
  decode 0b00100001000111010101011110000011 = .command (.gfmul 0x11D 0x57 0x83) ∧
  decode 0b00110001000111010000000001010011 = .command (.gfinv 0x11D 0x53) ∧
  decode 0b01000000000000000110001110001110 = .command (.affine 0x63 0x8E) ∧
  decode 0b01010001000111010110001100000000 = .command (.sboxgen 0x11D 0x63) ∧
  decode 0b01100000000000000000000011111111 = .command (.lds 0xFF) ∧
  decode 0b01110000000000000000000010100010 = .command (.ldi 0xA2) ∧
  decode 0b10000000000000000000000000000000 = .command .clrf

/-- The assembler refuses a command with an operand outside its field and encodes every other as R72's table says,
`ROTL` with `s = 0` and `s = 8` to `15` included (R72). -/
def Obligations.AssemblerRefusesOutOfRange : Prop :=
  AsmCommand.nop.assemble.map encode = some 0x00000000 ∧
  AsmCommand.clrf.assemble.map encode = some 0x80000000 ∧
  (∀ x s : Nat, (AsmCommand.rotl x s).assemble.map encode =
    if x ≤ 255 ∧ s ≤ 15 then some (BitVec.ofNat 32 (0x10000000 ||| (s <<< 8) ||| x)) else none) ∧
  (∀ a b m : Nat, (AsmCommand.gfmul a b m).assemble.map encode =
    if a ≤ 255 ∧ b ≤ 255 ∧ m ≤ 0x1FF then some (BitVec.ofNat 32 (0x20000000 ||| (m <<< 16) ||| (a <<< 8) ||| b))
    else none) ∧
  (∀ x m : Nat, (AsmCommand.gfinv x m).assemble.map encode =
    if x ≤ 255 ∧ m ≤ 0x1FF then some (BitVec.ofNat 32 (0x30000000 ||| (m <<< 16) ||| x)) else none) ∧
  (∀ x c : Nat, (AsmCommand.affine x c).assemble.map encode =
    if x ≤ 255 ∧ c ≤ 255 then some (BitVec.ofNat 32 (0x40000000 ||| (c <<< 8) ||| x)) else none) ∧
  (∀ m c : Nat, (AsmCommand.sboxgen m c).assemble.map encode =
    if m ≤ 0x1FF ∧ c ≤ 255 then some (BitVec.ofNat 32 (0x50000000 ||| (m <<< 16) ||| (c <<< 8))) else none) ∧
  (∀ idx : Nat, (AsmCommand.lds idx).assemble.map encode =
    if idx ≤ 255 then some (BitVec.ofNat 32 (0x60000000 ||| idx)) else none) ∧
  (∀ idx : Nat, (AsmCommand.ldi idx).assemble.map encode =
    if idx ≤ 255 then some (BitVec.ofNat 32 (0x70000000 ||| idx)) else none)

/-! ## Rotation -/

/-- ROTL (R82): its words, the rotation for a shift field 1 to 7 with nothing but `R` written, and the rejection with
`RNG` alone for every other shift field. -/
def Obligations.RotlRotatesOrRejects : Prop :=
  (∀ w : Word, w &&& 0xFFFFF000 = 0x10000000 →
    decode w = .command (.rotl (w.extractLsb' 8 4) (w.extractLsb' 0 8))) ∧
  (∀ (sh : ShiftField) (x : Byte) (s : State), 1 ≤ sh.toNat → sh.toNat ≤ 7 →
    exec (.rotl sh x) s =
      .next { s with r := BitVec.ofNat 8 (((x.toNat <<< sh.toNat) &&& 0xFF) ||| (x.toNat >>> (8 - sh.toNat))) }) ∧
  (∀ (sh : ShiftField) (x : Byte) (s : State), sh.toNat = 0 ∨ 8 ≤ sh.toNat →
    exec (.rotl sh x) s = .next { s with status := s.status ||| 0b000100 })

/-- The rotation's formula, and its bit by bit form both ways (R80). -/
def Obligations.RotationMovesBits : Prop :=
  ∀ (x : Byte) (s : ShiftCount),
    (rotl8 x s).toNat = ((x.toNat <<< s.n) &&& 0xFF) ||| (x.toNat >>> (8 - s.n)) ∧
    (∀ j < 8, (rotl8 x s).getLsbD j = x.getLsbD ((j + 8 - s.n) % 8)) ∧
    (∀ k < 8, (rotl8 x s).getLsbD ((k + s.n) % 8) = x.getLsbD k)

/-- The four laws of rotation (R83). -/
def Obligations.RotationLaws : Prop :=
  (∀ (x : Byte) (s t : ShiftCount),
    (∀ u : ShiftCount, u.n = (s.n + t.n) % 8 → rotl8 (rotl8 x s) t = rotl8 x u) ∧
    ((s.n + t.n) % 8 = 0 → rotl8 (rotl8 x s) t = x)) ∧
  (∀ x : Byte, (fun y => rotl8 y shift1)^[8] x = x) ∧
  (∀ (x y : Byte) (s : ShiftCount), rotl8 (x ^^^ y) s = rotl8 x s ^^^ rotl8 y s ∧ rotl8 0x00 s = 0x00 ∧
    rotl8 0xFF s = 0xFF ∧ onesOf (rotl8 x s) = onesOf x) ∧
  (∀ s : ShiftCount, Function.Bijective (fun x => rotl8 x s) ∧
    ∀ t : ShiftCount, t.n = 8 - s.n → ∀ x, rotl8 (rotl8 x s) t = x)

/-! ## Multiplication -/

/-- GFMUL (R93): its words, and that it completes from every state for every modulus, writing `R` and nothing else. -/
def Obligations.GfmulWritesProduct : Prop :=
  (∀ w : Word, w &&& 0xFE000000 = 0x20000000 →
    decode w = .command (.gfmul (w.extractLsb' 16 9) (w.extractLsb' 8 8) (w.extractLsb' 0 8))) ∧
  (∀ (m : Modulus) (a b : Byte) (s : State), exec (.gfmul m a b) s = .next { s with r := gfmul a b m })

/-- The nine-bit multiplier gives what the source's algorithm gives on unbounded integers with the bit-8 test, for every
modulus; for a modulus with bit 8 set the test "at least 0x100" gives the same, and `av` and `acc` stay below `0x100` at
the top of every iteration (R91). -/
def Obligations.MultiplierAgreesWithUnboundedIntegers : Prop :=
  (∀ (a b : Byte) (m : Modulus), (gfmul a b m).toNat = unboundedMul setsBit8 a.toNat b.toNat m.toNat) ∧
  (∀ (a b : Byte) (m : Modulus), m.getLsbD 8 = true →
    (gfmul a b m).toNat = unboundedMul atLeast0x100 a.toNat b.toNat m.toNat) ∧
  (∀ (a b : Byte) (m : Modulus), m.getLsbD 8 = true → ∀ k ≤ 8,
    (mulRun m (mulStart a b) k).av.toNat < 0x100 ∧ (mulRun m (mulStart a b) k).acc.toNat < 0x100)

/-- Zero absorbs and one is the identity, on either side, under every modulus (R94). -/
def Obligations.MultiplicationByZeroAndOne : Prop :=
  ∀ (x : Byte) (m : Modulus), gfmul x 0 m = 0 ∧ gfmul 0 x m = 0 ∧ gfmul x 1 m = x ∧ gfmul 1 x m = x

/-- Multiplication is commutative under every nine-bit modulus (R95). -/
def Obligations.MultiplicationIsCommutative : Prop :=
  ∀ (a b : Byte) (m : Modulus), gfmul a b m = gfmul b a m

/-- For a modulus with bit 8 set the product is the remainder of the product of polynomials over GF(2) on division by
the modulus; at the top of iteration `k` the shifting copy is `a(x) x^k mod m(x)` and the accumulator collects those
terms for the set bits of `b`; the multiplication is then associative, and it distributes over XOR for every modulus
(R96, in the representation of R9). -/
def Obligations.ProductIsPolynomialRemainder : Prop :=
  (∀ (a b : Byte) (m : Modulus), m.getLsbD 8 = true →
    polyOf (gfmul a b m) = (polyOf a * polyOf b) %ₘ polyOf m ∧
    (∀ k < 8,
      polyOf (mulRun m (mulStart a b) k).av = (polyOf a * Polynomial.X ^ k) %ₘ polyOf m ∧
      polyOf (mulRun m (mulStart a b) k).acc =
        ∑ j ∈ Finset.range k, if b.getLsbD j then (polyOf a * Polynomial.X ^ j) %ₘ polyOf m else 0)) ∧
  (∀ (a b c : Byte) (m : Modulus), m.getLsbD 8 = true → gfmul (gfmul a b m) c m = gfmul a (gfmul b c m) m) ∧
  (∀ (a b c : Byte) (m : Modulus), gfmul a (b ^^^ c) m = gfmul a b m ^^^ gfmul a c m)

/-- Bit 8 of the modulus does not affect the product, the inverse or the generated tables (R97). -/
def Obligations.ModulusBit8HasNoEffect : Prop :=
  ∀ p : BitVec 8,
    (∀ a b : Byte, gfmul a b (p.setWidth 9) = gfmul a b (0x100 ||| p.setWidth 9)) ∧
    (∀ x : Byte, gfinv x (p.setWidth 9) = gfinv x (0x100 ||| p.setWidth 9)) ∧
    (∀ c : Byte, gen (p.setWidth 9) c = gen (0x100 ||| p.setWidth 9) c)

/-! ## Inversion -/

/-- GFINV (R108): its words, and that it completes from every state, writing `R` always and `NOINV` exactly for a
nonzero operand whose search ended with 0. -/
def Obligations.GfinvWritesInverseAndWarns : Prop :=
  (∀ w : Word, w &&& 0xFE00FF00 = 0x30000000 →
    decode w = .command (.gfinv (w.extractLsb' 16 9) (w.extractLsb' 0 8))) ∧
  (∀ (m : Modulus) (x : Byte) (s : State),
    exec (.gfinv m x) s =
      .next { s with
        r := gfinv x m
        status := if x ≠ 0 ∧ gfinv x m = 0 then s.status ||| 0b001000 else s.status })

/-- The finder returns the first of the candidates 1 to 255, in ascending order, whose product with `x` is 1, and 0
exactly when none qualifies (R105). -/
def Obligations.InverseIsFirstHit : Prop :=
  ∀ (x : Byte) (m : Modulus),
    (∀ y : Byte, y ≠ 0 →
      (gfinv x m = y ↔ gfmul x y m = 1 ∧ ∀ z : Byte, z ≠ 0 → z.toNat < y.toNat → gfmul x z m ≠ 1)) ∧
    (gfinv x m = 0 ↔ ∀ y : Byte, y ≠ 0 → gfmul x y m ≠ 1)

/-- The inverse of 0 is 0 and the inverse of 1 is 1 under every modulus, so neither raises `NOINV` (R106 and R108's
corner cases; the flag's condition is R28's). -/
def Obligations.InverseOfZeroAndOne : Prop :=
  ∀ m : Modulus, gfinv 0 m = 0 ∧ gfinv 1 m = 1 ∧ lacksInverse 0 m = false ∧ lacksInverse 1 m = false

/-- Under a valid modulus every nonzero byte times its inverse is 1, the inverse is the only such byte, inversion is an
involution and it permutes 1 to 255; under any modulus a nonzero value is a true inverse; with bit 8 set an inverse is
unique (R109). -/
def Obligations.InverseLaws : Prop :=
  (∀ m : Modulus, ValidModulus m → ∀ x : Byte, x ≠ 0 →
    gfmul x (gfinv x m) m = 1 ∧ (∀ y : Byte, gfmul x y m = 1 → y = gfinv x m) ∧ gfinv (gfinv x m) m = x) ∧
  (∀ m : Modulus, ValidModulus m → Set.BijOn (fun x : Byte => gfinv x m) {x | x ≠ 0} {x | x ≠ 0}) ∧
  (∀ (m : Modulus) (x : Byte), gfinv x m ≠ 0 → gfmul x (gfinv x m) m = 1) ∧
  (∀ m : Modulus, m.getLsbD 8 = true → ∀ x y z : Byte, gfmul x y m = 1 → gfmul x z m = 1 → y = z)

/-- The valid moduli are the 30 listed; for them and for the same values with bit 8 cleared every nonzero byte has an
inverse, and for every other nine-bit value some nonzero byte has none (R127). -/
def Obligations.ValidModuliAreTheListed : Prop :=
  validModuli.length = 30 ∧
  (∀ m : Modulus, ValidModulus m ↔ m ∈ validModuli) ∧
  (∀ m : Modulus, (∀ x : Byte, x ≠ 0 → gfinv x m ≠ 0) ↔ (0x100 ||| m) ∈ validModuli)

/-! ## The affine transform -/

/-- AFFINE (R117): its words; that it completes from every state, writing `R` alone with `lin(x) XOR c`, no inversion;
and that on the value GFINV left in `R` it gives the S-box entry. -/
def Obligations.AffineWritesTransform : Prop :=
  (∀ w : Word, w &&& 0xFFFF0000 = 0x40000000 →
    decode w = .command (.affine (w.extractLsb' 8 8) (w.extractLsb' 0 8))) ∧
  (∀ (c x : Byte) (s : State), exec (.affine c x) s = .next { s with r := lin x ^^^ c }) ∧
  (∀ (m : Modulus) (c i : Byte) (s : State), ∃ t u : State,
    exec (.gfinv m i) s = .next t ∧ exec (.affine c t.r) t = .next u ∧ (gen m c).entry .sbox i = some u.r)

/-- Bit `j` of `lin(v)` is the XOR of bits `j`, `j-1`, `j-2`, `j-3` and `j-4` of `v`, modulo 8 (R115). -/
def Obligations.LinBitByBit : Prop :=
  ∀ v : Byte,
    lin v = v ^^^ rotl8 v shift1 ^^^ rotl8 v shift2 ^^^ rotl8 v shift3 ^^^ rotl8 v shift4 ∧
    (∀ j < 8, (lin v).getLsbD j =
      (v.getLsbD j ^^ v.getLsbD ((j + 7) % 8) ^^ v.getLsbD ((j + 6) % 8) ^^ v.getLsbD ((j + 5) % 8) ^^
        v.getLsbD ((j + 4) % 8))) ∧
    lin 0x00 = 0x00

/-- `lin` is linear over XOR and a bijection on bytes, so `affine` is a bijection for every constant (R125; R116 for
`affine`). -/
def Obligations.LinIsLinearBijection : Prop :=
  (∀ u v : Byte, lin (u ^^^ v) = lin u ^^^ lin v) ∧ lin 0x00 = 0x00 ∧ Function.Bijective lin ∧
  (∀ c : Byte, Function.Bijective (fun v => affine v c)) ∧
  lin 0x01 = 0x1F ∧ lin 0x02 = 0x3E ∧ lin 0x80 = 0x8F ∧ lin 0xFF = 0xFF ∧ lin 0x8E = 0x35 ∧ lin 0xFD = 0xC1 ∧
  lin 0x1C = 0x75 ∧ lin 0x53 = 0x17 ∧ lin 0xCA = 0x8E

/-! ## The generator -/

/-- SBOXGEN (R120): its words; that it completes from every state for every modulus and constant; every byte of both
tables is then what `gen(m, c)` gives (as equal data where the memories before were in canonical form); `GMOD`, `GCONST`
and `TV` are written; `NOINV` and `COLL` are set exactly on their conditions and kept otherwise; `R`, the other flags
and the host's input are unchanged. -/
def Obligations.SboxgenFillsBothTables : Prop :=
  (∀ w : Word, w &&& 0xFE0000FF = 0x50000000 →
    decode w = .command (.sboxgen (w.extractLsb' 16 9) (w.extractLsb' 8 8))) ∧
  (∀ (m : Modulus) (c : Byte) (s : State), ∃ t : State, exec (.sboxgen m c) s = .next t ∧
    (∀ (tab : Table) (k : Byte), t.memRead tab k = (gen m c).entry tab k) ∧
    (s.sbox.wf = true → s.isbox.wf = true → t.sbox = (gen m c).sbox ∧ t.isbox = (gen m c).isbox) ∧
    t.gmod = m ∧ t.gconst = c ∧ t.flag .tv = true ∧
    (t.flag .noinv = true ↔ s.flag .noinv = true ∨ ∃ i : Byte, i ≠ 0 ∧ gfinv i m = 0) ∧
    (t.flag .coll = true ↔
      s.flag .coll = true ∨ ∃ i j : Byte, i ≠ j ∧ affine (gfinv i m) c = affine (gfinv j m) c) ∧
    t.flag .ill = s.flag .ill ∧ t.flag .rng = s.flag .rng ∧ t.flag .nv = s.flag .nv ∧
    t.r = s.r ∧ t.inputs = s.inputs)

/-- Every S-box entry is the affine transform of the inverse, so entry 0 is the constant and entry 1 is `0x1F XOR c`
under every modulus (R119). -/
def Obligations.SboxEntryIsAffineOfInverse : Prop :=
  ∀ (m : Modulus) (c : Byte),
    (∀ i : Byte, (gen m c).entry .sbox i = some (affine (gfinv i m) c)) ∧
    (gen m c).entry .sbox 0 = some c ∧ (gen m c).entry .sbox 1 = some (0x1F ^^^ c)

/-- After SBOXGEN an `ISBOX` index that no S-box entry equals holds 0, and any other holds the largest `i` whose entry
it is (R48). -/
def Obligations.InverseTableKeepsLargestIndex : Prop :=
  ∀ (m : Modulus) (c : Byte) (s : State), ∃ t : State, exec (.sboxgen m c) s = .next t ∧ ∃ box : Byte → Byte,
    (∀ i : Byte, t.memRead .sbox i = some (box i)) ∧ ∀ v : Byte,
      ((∀ i : Byte, box i ≠ v) → t.memRead .isbox v = some 0x00) ∧
      (∀ i : Byte, box i = v → (∀ j : Byte, box j = v → j.toNat ≤ i.toNat) → t.memRead .isbox v = some i)

/-- Under a valid modulus, after SBOXGEN the S-box is a permutation, the two tables undo each other both ways, the
inverse table is a permutation, and no collision is recorded (R126). -/
def Obligations.ValidModulusGivesInversePermutations : Prop :=
  ∀ (m : Modulus) (c : Byte) (s : State), ValidModulus m → ∃ t : State, exec (.sboxgen m c) s = .next t ∧
    ∃ box inv : Byte → Byte,
      (∀ k : Byte, t.memRead .sbox k = some (box k) ∧ t.memRead .isbox k = some (inv k)) ∧
      Function.Bijective box ∧ Function.Bijective inv ∧
      (∀ i : Byte, inv (box i) = i) ∧ (∀ k : Byte, box (inv k) = k) ∧
      t.flag .coll = s.flag .coll

/-- An SBOXGEN started with both warnings 0 ends with them equal, and with both 0 exactly for the 60 moduli that are a
listed value or one with bit 8 cleared (R122). -/
def Obligations.WarningsRiseTogether : Prop :=
  ∀ (m : Modulus) (c : Byte) (s : State), s.flag .noinv = false → s.flag .coll = false →
    ∃ t : State, exec (.sboxgen m c) s = .next t ∧ t.flag .noinv = t.flag .coll ∧
      (t.flag .noinv = false ∧ t.flag .coll = false ↔ (0x100 ||| m) ∈ validModuli)

/-- What the host's check of `COLL` buys, for every modulus: an SBOXGEN started with `COLL` 0 ends with it 0 exactly
when every index round-trips through the two tables (R29, R126, R174). -/
def Obligations.CollisionFlagDecidesRoundTrip : Prop :=
  ∀ (m : Modulus) (c : Byte) (s : State), s.flag .coll = false → ∃ t : State, exec (.sboxgen m c) s = .next t ∧
    (t.flag .coll = false ↔ ∀ i : Byte, ∃ v : Byte, t.memRead .sbox i = some v ∧ t.memRead .isbox v = some i)

/-! ## Table loads -/

/-- LDS and LDI (R123, R124): their words; with `TV` 0 each is rejected with `NV` alone, the table not read; with `TV` 1
the byte at the index itself goes to `R` and nothing else changes. -/
def Obligations.LoadsReadOrReject : Prop :=
  (∀ w : Word, w &&& 0xFFFFFF00 = 0x60000000 → decode w = .command (.lds (w.extractLsb' 0 8))) ∧
  (∀ w : Word, w &&& 0xFFFFFF00 = 0x70000000 → decode w = .command (.ldi (w.extractLsb' 0 8))) ∧
  (∀ (idx : Byte) (s : State), s.flag .tv = false →
    exec (.lds idx) s = .next { s with status := s.status ||| 0b100000 } ∧
    exec (.ldi idx) s = .next { s with status := s.status ||| 0b100000 }) ∧
  (∀ (idx v : Byte) (s : State), s.flag .tv = true → s.sbox.read idx.toNat = some v →
    exec (.lds idx) s = .next { s with r := v }) ∧
  (∀ (idx v : Byte) (s : State), s.flag .tv = true → s.isbox.read idx.toNat = some v →
    exec (.ldi idx) s = .next { s with r := v })

/-- While `TV` is 1 every cell of both tables holds a value, in every state of the invariant (R25, R45). -/
def Obligations.ValidTablesHoldEveryCell : Prop :=
  ∀ s : State, CoreInv s → s.flag .tv = true → ∀ (tab : Table) (k : Byte), ∃ v, s.memRead tab k = some v

/-- The one stop of the machine is the model's own choice (log entry 2): a load under `TV` 1 from a cell that holds no
value, which no state of the invariant meets. No other command ever stops. -/
def Obligations.OnlyALoadWithoutValueStops : Prop :=
  ∀ (i : Instr) (s : State),
    ((∃ t, exec i s = .next t) ∨
      ∃ (tab : Table) (idx : Byte), (i = .lds idx ∧ tab = .sbox ∨ i = .ldi idx ∧ tab = .isbox) ∧
        s.flag .tv = true ∧ s.memRead tab idx = none ∧ exec i s = .fault (.cellWithoutValue tab idx)) ∧
    (CoreInv s → ∃ t, exec i s = .next t)

/-- Loading the same index twice with no SBOXGEN between gives the same byte: the second load of a completed load
changes nothing more (R44). -/
def Obligations.LoadIsRepeatable : Prop :=
  ∀ (idx : Byte) (s t : State),
    (exec (.lds idx) s = .next t → exec (.lds idx) t = .next t) ∧
    (exec (.ldi idx) s = .next t → exec (.ldi idx) t = .next t)

/-! ## System commands -/

/-- NOP (R140): its one word; from any state it gives that state. CLRF (R141): its one word; the five error flags become
0 and `TV` and everything else stay. -/
def Obligations.NopAndClrf : Prop :=
  decode 0x00000000 = .command .nop ∧ (∀ w : Word, w.toNat / 2 ^ 28 = 0 → w ≠ 0 → ∃ why, decode w = .illegal why) ∧
  (∀ s : State, exec .nop s = .next s) ∧
  decode 0x80000000 = .command .clrf ∧
  (∀ s : State, ∃ t : State, exec .clrf s = .next t ∧ t = { s with status := t.status } ∧
    t.flag .tv = s.flag .tv ∧ ∀ f ∈ errorFlags, t.flag f = false)

/-! ## Whole-machine rules -/

/-- No command other than CLRF writes 0 to an error flag, and no command at all, CLRF included, writes 0 to `TV`; only
an edge with `rst = 1` does (R24, R25). -/
def Obligations.FlagsAreSticky : Prop :=
  (∀ (i : Instr) (s t : State) (f : Flag), exec i s = .next t → i ≠ .clrf → s.flag f = true → t.flag f = true) ∧
  (∀ s t : State, exec .clrf s = .next t → s.flag .tv = true → t.flag .tv = true) ∧
  (∀ (s t : State) (f : Flag), step s = .next t → s.flag f = true → t.flag f = false →
    ∃ p rest, s.inputs = p :: rest ∧ (p.rst = true ∨ (f ≠ .tv ∧ p.cmdValid = true ∧ p.cmdWord = 0x80000000)))

/-- A command raises the flags that its own rule names and no others; `TV` is raised by SBOXGEN alone (R151, R160,
R25). -/
def Obligations.CommandsRaiseOnlyTheirFlags : Prop :=
  ∀ (i : Instr) (s t : State) (f : Flag), exec i s = .next t → s.flag f = false → t.flag f = true →
    (f ≠ .tv ∧ f ∈ raisableFlags i) ∨ (f = .tv ∧ ∃ m c, i = .sboxgen m c)

/-- A rejection sets its flag and performs no other write: where a command raises `ILL`, `RNG` or `NV`, the state after
is the state before with that flag set (R150). -/
def Obligations.RejectionWritesOnlyItsFlag : Prop :=
  ∀ (i : Instr) (s t : State) (f : Flag), exec i s = .next t → f ∈ rejectionFlags → s.flag f = false →
    t.flag f = true → t = s.setFlag f

/-- The frame of every command but SBOXGEN: `GMOD`, `GCONST`, the host's input and every byte of both tables are
unchanged; NOP, CLRF and SBOXGEN leave `R`; and no command but CLRF and the one that raises a flag of its own touches a
flag (R21, R31, R32, R41, R128). -/
def Obligations.OnlySboxgenWritesTables : Prop :=
  (∀ (i : Instr) (s t : State), exec i s = .next t → (∀ m c, i ≠ .sboxgen m c) →
    t.gmod = s.gmod ∧ t.gconst = s.gconst ∧ t.inputs = s.inputs ∧
    (∀ (tab : Table) (k : Byte), t.memRead tab k = s.memRead tab k) ∧
    t.sbox = s.sbox ∧ t.isbox = s.isbox ∧ t.flag .tv = s.flag .tv ∧
    (i ≠ .clrf → ∀ f, f ∉ raisableFlags i → t.flag f = s.flag f)) ∧
  (∀ (i : Instr) (s t : State), exec i s = .next t → i = .nop ∨ i = .clrf ∨ (∃ m c, i = .sboxgen m c) → t.r = s.r)

/-- No command reads `R`, `GMOD` or `GCONST`: changing them before a command changes nothing after it but what the
command leaves of them (R21, R31, R32). -/
def Obligations.NoCommandReadsResultOrRecords : Prop :=
  ∀ (i : Instr) (s t : State) (v c : Byte) (g : Modulus), exec i s = .next t →
    ∃ t' : State, exec i { s with r := v, gmod := g, gconst := c } = .next t' ∧
      t'.status = t.status ∧ t'.sbox = t.sbox ∧ t'.isbox = t.isbox ∧ t'.inputs = t.inputs ∧
      (t'.r = t.r ∨ (t.r = s.r ∧ t'.r = v)) ∧
      (t'.gmod = t.gmod ∧ t'.gconst = t.gconst ∨
        (t.gmod = s.gmod ∧ t.gconst = s.gconst ∧ t'.gmod = g ∧ t'.gconst = c))

/-- A set error flag never blocks, alters or rejects a later command: two states that differ in the error flags alone
give, under every command, states that differ in the error flags alone, and the same stop where there is one (R150). -/
def Obligations.ErrorFlagsNeverSteer : Prop :=
  ∀ (i : Instr) (s s' : State), SameButErrorFlags s s' →
    (∀ t, exec i s = .next t → ∃ t', exec i s' = .next t' ∧ SameButErrorFlags t t') ∧
    (∀ why, exec i s = .fault why → exec i s' = .fault why)

/-! ## The invariant and runs -/

/-- The invariant holds at reset: both memories in canonical form, and `TV` is 0. -/
def Obligations.InvariantHoldsAtReset : Prop := CoreInv State.reset

/-- Every step keeps the invariant: the memories stay in canonical form, and while `TV` is 1 the tables are those that
R118 gives for the operands recorded in `GMOD` and `GCONST` (R25). -/
def Obligations.StepKeepsInvariant : Prop :=
  ∀ s t : State, CoreInv s → step s = .next t → CoreInv t

/-- From every state of the invariant and whatever the host drives, a run of any length answers a next state: the core
cannot hang and cannot be stuck (R177). -/
def Obligations.RunsNeverStop : Prop :=
  ∀ (n : Nat) (s : State), CoreInv s → ∃ t : State, Host.Core.run Sys2Proof.core n s = .next t ∧ CoreInv t

/-- Over any sequence of words that the host presents, the tables are valid at the end, that is `TV` is 1, exactly when
they were valid before or one of the words is a legal SBOXGEN (R25, R47, R177). -/
def Obligations.TablesValidExactlyAfterSboxgen : Prop :=
  ∀ (ws : List Word) (s t : State), s.inputs = ws.map present →
    Host.Core.run Sys2Proof.core ws.length s = .next t →
    t.inputs = [] ∧
    (t.flag .tv = true ↔ s.flag .tv = true ∨ ∃ w ∈ ws, w &&& 0xFE0000FF = 0x50000000)
end

