-- ==== Sys2Proof/Laws/State.lean ====
section
/-! SUPPORT. What each update of the state leaves in each field, so that no later proof unfolds a record update. -/

namespace Sys2Proof.Machine

/-! ### writeR -/

@[simp] theorem State.writeR_r_eq (s : State) (v : Byte) : (s.writeR v).r = v := rfl
@[simp] theorem State.writeR_status_eq (s : State) (v : Byte) : (s.writeR v).status = s.status := rfl
@[simp] theorem State.writeR_gmod_eq (s : State) (v : Byte) : (s.writeR v).gmod = s.gmod := rfl
@[simp] theorem State.writeR_gconst_eq (s : State) (v : Byte) : (s.writeR v).gconst = s.gconst := rfl
@[simp] theorem State.writeR_sbox_eq (s : State) (v : Byte) : (s.writeR v).sbox = s.sbox := rfl
@[simp] theorem State.writeR_isbox_eq (s : State) (v : Byte) : (s.writeR v).isbox = s.isbox := rfl
@[simp] theorem State.writeR_inputs_eq (s : State) (v : Byte) : (s.writeR v).inputs = s.inputs := rfl

/-! ### setFlag -/

@[simp] theorem State.setFlag_r_eq (s : State) (f : Flag) : (s.setFlag f).r = s.r := rfl
@[simp] theorem State.setFlag_status_eq (s : State) (f : Flag) : (s.setFlag f).status = setFlagIn s.status f := rfl
@[simp] theorem State.setFlag_gmod_eq (s : State) (f : Flag) : (s.setFlag f).gmod = s.gmod := rfl
@[simp] theorem State.setFlag_gconst_eq (s : State) (f : Flag) : (s.setFlag f).gconst = s.gconst := rfl
@[simp] theorem State.setFlag_sbox_eq (s : State) (f : Flag) : (s.setFlag f).sbox = s.sbox := rfl
@[simp] theorem State.setFlag_isbox_eq (s : State) (f : Flag) : (s.setFlag f).isbox = s.isbox := rfl
@[simp] theorem State.setFlag_inputs_eq (s : State) (f : Flag) : (s.setFlag f).inputs = s.inputs := rfl

/-! ### clearErrors -/

@[simp] theorem State.clearErrors_r_eq (s : State) : s.clearErrors.r = s.r := rfl
@[simp] theorem State.clearErrors_status_eq (s : State) : s.clearErrors.status = clearErrorFlagsIn s.status := rfl
@[simp] theorem State.clearErrors_gmod_eq (s : State) : s.clearErrors.gmod = s.gmod := rfl
@[simp] theorem State.clearErrors_gconst_eq (s : State) : s.clearErrors.gconst = s.gconst := rfl
@[simp] theorem State.clearErrors_sbox_eq (s : State) : s.clearErrors.sbox = s.sbox := rfl
@[simp] theorem State.clearErrors_isbox_eq (s : State) : s.clearErrors.isbox = s.isbox := rfl
@[simp] theorem State.clearErrors_inputs_eq (s : State) : s.clearErrors.inputs = s.inputs := rfl

/-! ### recordParams -/

@[simp] theorem State.recordParams_r_eq (s : State) (m : Modulus) (c : Byte) : (s.recordParams m c).r = s.r := rfl
@[simp] theorem State.recordParams_status_eq (s : State) (m : Modulus) (c : Byte) : (s.recordParams m c).status = s.status := rfl
@[simp] theorem State.recordParams_gmod_eq (s : State) (m : Modulus) (c : Byte) : (s.recordParams m c).gmod = m := rfl
@[simp] theorem State.recordParams_gconst_eq (s : State) (m : Modulus) (c : Byte) : (s.recordParams m c).gconst = c := rfl
@[simp] theorem State.recordParams_sbox_eq (s : State) (m : Modulus) (c : Byte) : (s.recordParams m c).sbox = s.sbox := rfl
@[simp] theorem State.recordParams_isbox_eq (s : State) (m : Modulus) (c : Byte) : (s.recordParams m c).isbox = s.isbox := rfl
@[simp] theorem State.recordParams_inputs_eq (s : State) (m : Modulus) (c : Byte) : (s.recordParams m c).inputs = s.inputs := rfl

/-! ### memWrite_sbox -/

@[simp] theorem State.memWrite_sbox_r_eq (s : State) (k v : Byte) : (s.memWrite .sbox k v).r = s.r := rfl
@[simp] theorem State.memWrite_sbox_status_eq (s : State) (k v : Byte) : (s.memWrite .sbox k v).status = s.status := rfl
@[simp] theorem State.memWrite_sbox_gmod_eq (s : State) (k v : Byte) : (s.memWrite .sbox k v).gmod = s.gmod := rfl
@[simp] theorem State.memWrite_sbox_gconst_eq (s : State) (k v : Byte) : (s.memWrite .sbox k v).gconst = s.gconst := rfl
@[simp] theorem State.memWrite_sbox_sbox_eq (s : State) (k v : Byte) : (s.memWrite .sbox k v).sbox = s.sbox.write (tableIndex k) v := rfl
@[simp] theorem State.memWrite_sbox_isbox_eq (s : State) (k v : Byte) : (s.memWrite .sbox k v).isbox = s.isbox := rfl
@[simp] theorem State.memWrite_sbox_inputs_eq (s : State) (k v : Byte) : (s.memWrite .sbox k v).inputs = s.inputs := rfl

/-! ### memWrite_isbox -/

@[simp] theorem State.memWrite_isbox_r_eq (s : State) (k v : Byte) : (s.memWrite .isbox k v).r = s.r := rfl
@[simp] theorem State.memWrite_isbox_status_eq (s : State) (k v : Byte) : (s.memWrite .isbox k v).status = s.status := rfl
@[simp] theorem State.memWrite_isbox_gmod_eq (s : State) (k v : Byte) : (s.memWrite .isbox k v).gmod = s.gmod := rfl
@[simp] theorem State.memWrite_isbox_gconst_eq (s : State) (k v : Byte) : (s.memWrite .isbox k v).gconst = s.gconst := rfl
@[simp] theorem State.memWrite_isbox_sbox_eq (s : State) (k v : Byte) : (s.memWrite .isbox k v).sbox = s.sbox := rfl
@[simp] theorem State.memWrite_isbox_isbox_eq (s : State) (k v : Byte) : (s.memWrite .isbox k v).isbox = s.isbox.write (tableIndex k) v := rfl
@[simp] theorem State.memWrite_isbox_inputs_eq (s : State) (k v : Byte) : (s.memWrite .isbox k v).inputs = s.inputs := rfl

/-! ### applyReset -/

@[simp] theorem State.applyReset_r_eq (s : State) : s.applyReset.r = 0x00 := rfl
@[simp] theorem State.applyReset_status_eq (s : State) : s.applyReset.status = 0b000000 := rfl
@[simp] theorem State.applyReset_gmod_eq (s : State) : s.applyReset.gmod = 0x000 := rfl
@[simp] theorem State.applyReset_gconst_eq (s : State) : s.applyReset.gconst = 0x00 := rfl
@[simp] theorem State.applyReset_sbox_eq (s : State) : s.applyReset.sbox = [] := rfl
@[simp] theorem State.applyReset_isbox_eq (s : State) : s.applyReset.isbox = [] := rfl
@[simp] theorem State.applyReset_inputs_eq (s : State) : s.applyReset.inputs = s.inputs := rfl

/-! ### withFetchWord -/

@[simp] theorem State.withFetchWord_r_eq (s : State) (nbits w : Nat) : (s.withFetchWord nbits w).r = s.r := rfl
@[simp] theorem State.withFetchWord_status_eq (s : State) (nbits w : Nat) : (s.withFetchWord nbits w).status = s.status := rfl
@[simp] theorem State.withFetchWord_gmod_eq (s : State) (nbits w : Nat) : (s.withFetchWord nbits w).gmod = s.gmod := rfl
@[simp] theorem State.withFetchWord_gconst_eq (s : State) (nbits w : Nat) : (s.withFetchWord nbits w).gconst = s.gconst := rfl
@[simp] theorem State.withFetchWord_sbox_eq (s : State) (nbits w : Nat) : (s.withFetchWord nbits w).sbox = s.sbox := rfl
@[simp] theorem State.withFetchWord_isbox_eq (s : State) (nbits w : Nat) : (s.withFetchWord nbits w).isbox = s.isbox := rfl
@[simp] theorem State.withFetchWord_inputs_eq (s : State) (nbits w : Nat) : (s.withFetchWord nbits w).inputs = present (tableWord nbits w) :: s.inputs := rfl

/-! ### warnIf -/

@[simp] theorem State.warnIf_true (s : State) (f : Flag) : s.warnIf true f = s.setFlag f := rfl
@[simp] theorem State.warnIf_false (s : State) (f : Flag) : s.warnIf false f = s := rfl
@[simp] theorem State.warnIf_r_eq (s : State) (c : Bool) (f : Flag) : (s.warnIf c f).r = s.r := by cases c <;> rfl
@[simp] theorem State.warnIf_status_eq (s : State) (c : Bool) (f : Flag) :
    (s.warnIf c f).status = if c then setFlagIn s.status f else s.status := by cases c <;> rfl
@[simp] theorem State.warnIf_gmod_eq (s : State) (c : Bool) (f : Flag) : (s.warnIf c f).gmod = s.gmod := by cases c <;> rfl
@[simp] theorem State.warnIf_gconst_eq (s : State) (c : Bool) (f : Flag) : (s.warnIf c f).gconst = s.gconst := by cases c <;> rfl
@[simp] theorem State.warnIf_sbox_eq (s : State) (c : Bool) (f : Flag) : (s.warnIf c f).sbox = s.sbox := by cases c <;> rfl
@[simp] theorem State.warnIf_isbox_eq (s : State) (c : Bool) (f : Flag) : (s.warnIf c f).isbox = s.isbox := by cases c <;> rfl
@[simp] theorem State.warnIf_inputs_eq (s : State) (c : Bool) (f : Flag) : (s.warnIf c f).inputs = s.inputs := by cases c <;> rfl

/-! ### tables -/

@[simp] theorem State.table_sbox (s : State) : s.table .sbox = s.sbox := rfl
@[simp] theorem State.table_isbox (s : State) : s.table .isbox = s.isbox := rfl

end Sys2Proof.Machine
end

