-- ==== Sys2Proof/Laws/Flags.lean ====
section
/-! SUPPORT. Reading a flag after each way of changing `STATUS` (spec/10_state.md R24). -/

namespace Sys2Proof.Machine

theorem flagOf_setFlagIn (st : StatusWord) (f g : Flag) : flagOf (setFlagIn st f) g = (flagOf st g || f == g) := by
  simp only [flagOf, setFlagIn, Flag.mask, BitVec.getLsbD_or, BitVec.getLsbD_twoPow]
  congr 1
  cases f <;> cases g <;> decide

@[simp] theorem flagOf_setFlagIn_same (st : StatusWord) (f : Flag) : flagOf (setFlagIn st f) f = true := by
  simp [flagOf_setFlagIn]

theorem flagOf_setFlagIn_other (st : StatusWord) (f g : Flag) (h : f ≠ g) :
    flagOf (setFlagIn st f) g = flagOf st g := by
  simp [flagOf_setFlagIn, h]

theorem flagOf_clearErrorFlagsIn (st : StatusWord) (g : Flag) :
    flagOf (clearErrorFlagsIn st) g = (flagOf st g && g == .tv) := by
  simp only [flagOf, clearErrorFlagsIn, Flag.mask, BitVec.getLsbD_and, BitVec.getLsbD_twoPow]
  congr 1
  cases g <;> decide

/-- A status word is its six flags. -/
theorem status_eq_of_flags {st st' : StatusWord} (h : ∀ f, flagOf st f = flagOf st' f) : st = st' := by
  apply BitVec.eq_of_getLsbD_eq
  intro i hi
  have hb : ∃ f : Flag, f.bit = i := by
    match i, hi with
    | 0, _ => exact ⟨.tv, rfl⟩
    | 1, _ => exact ⟨.ill, rfl⟩
    | 2, _ => exact ⟨.rng, rfl⟩
    | 3, _ => exact ⟨.noinv, rfl⟩
    | 4, _ => exact ⟨.coll, rfl⟩
    | 5, _ => exact ⟨.nv, rfl⟩
  obtain ⟨f, rfl⟩ := hb
  exact h f

@[simp] theorem State.flag_setFlag_same (s : State) (f : Flag) : (s.setFlag f).flag f = true :=
  flagOf_setFlagIn_same s.status f

theorem State.flag_setFlag (s : State) (f g : Flag) : (s.setFlag f).flag g = (s.flag g || f == g) :=
  flagOf_setFlagIn s.status f g

theorem State.flag_clearErrors (s : State) (g : Flag) : s.clearErrors.flag g = (s.flag g && g == .tv) :=
  flagOf_clearErrorFlagsIn s.status g

theorem State.flag_warnIf (s : State) (c : Bool) (f g : Flag) :
    (s.warnIf c f).flag g = (s.flag g || (c && f == g)) := by
  cases c
  · simp
  · simp [State.flag_setFlag]

@[simp] theorem State.flag_writeR (s : State) (v : Byte) (g : Flag) : (s.writeR v).flag g = s.flag g := rfl

@[simp] theorem State.flag_recordParams (s : State) (m : Modulus) (c : Byte) (g : Flag) :
    (s.recordParams m c).flag g = s.flag g := rfl

@[simp] theorem State.flag_memWrite (s : State) (t : Table) (k v : Byte) (g : Flag) :
    (s.memWrite t k v).flag g = s.flag g := by cases t <;> rfl

end Sys2Proof.Machine
end

