-- ==== Sys2Proof/Laws/Memory.lean ====
section
/-! SUPPORT. The laws of a table memory: a read after a write, and the canonical form. -/

namespace Sys2Proof.Machine

@[simp] theorem Memory.read_nil (a : Nat) : Memory.read [] a = none := rfl

theorem Memory.read_write_same (t : Memory) (a : Nat) (v : Byte) : (t.write a v).read a = some v := by
  induction t with
  | nil => simp [Memory.write, Memory.read]
  | cons cell rest ih =>
    obtain ⟨b, w⟩ := cell
    simp only [Memory.write]
    split
    · simp [Memory.read]
    · split
      · simp [Memory.read]
      · next _ hne => simpa [Memory.read, hne] using ih

theorem Memory.read_write_other (t : Memory) {a k : Nat} (v : Byte) (h : k ≠ a) :
    (t.write a v).read k = t.read k := by
  induction t with
  | nil => simp [Memory.write, Memory.read, h]
  | cons cell rest ih =>
    obtain ⟨b, w⟩ := cell
    simp only [Memory.write]
    split
    · simp [Memory.read, h]
    · split
      · next _ heq => subst heq; simp [Memory.read, h]
      · simp [Memory.read, ih]

/-- A read after a write, in one equation. -/
theorem Memory.read_write (t : Memory) (a k : Nat) (v : Byte) :
    (t.write a v).read k = if k = a then some v else t.read k := by
  by_cases h : k = a
  · subst h; simp [Memory.read_write_same]
  · simp [h, Memory.read_write_other]

theorem Memory.risingFrom_cons {lo : Nat} {cell : Host.Cell} {rest : Memory} :
    Memory.risingFrom lo (cell :: rest) = true ↔
      lo ≤ cell.1 ∧ cell.1 < Config.tableSize ∧ Memory.risingFrom (cell.1 + 1) rest = true := by
  simp [Memory.risingFrom, and_assoc]

theorem Memory.risingFrom_mono {lo lo' : Nat} {t : Memory} (hle : lo' ≤ lo) (h : Memory.risingFrom lo t = true) :
    Memory.risingFrom lo' t = true := by
  cases t with
  | nil => rfl
  | cons cell rest =>
    rw [Memory.risingFrom_cons] at h ⊢
    exact ⟨hle.trans h.1, h.2⟩

theorem Memory.risingFrom_write {lo a : Nat} {t : Memory} (v : Byte) (hlo : lo ≤ a) (ha : a < Config.tableSize)
    (h : Memory.risingFrom lo t = true) : Memory.risingFrom lo (t.write a v) = true := by
  induction t generalizing lo with
  | nil => exact Memory.risingFrom_cons.mpr ⟨hlo, ha, rfl⟩
  | cons cell rest ih =>
    obtain ⟨b, w⟩ := cell
    obtain ⟨hb, hb', hrest⟩ := Memory.risingFrom_cons.mp h
    simp only [Memory.write]
    split
    · next hab => exact Memory.risingFrom_cons.mpr ⟨hlo, ha, Memory.risingFrom_cons.mpr ⟨hab, hb', hrest⟩⟩
    · next hab =>
      split
      · next heq => subst heq; exact Memory.risingFrom_cons.mpr ⟨hlo, ha, hrest⟩
      · next hne =>
        exact Memory.risingFrom_cons.mpr ⟨hb, hb', ih (by simp only at hb ⊢; omega) hrest⟩

/-- Writing a cell keeps the canonical form. -/
theorem Memory.wf_write {t : Memory} {a : Nat} (v : Byte) (ha : a < Config.tableSize) (h : t.wf = true) :
    (t.write a v).wf = true := Memory.risingFrom_write v (Nat.zero_le a) ha h

theorem tableIndex_lt (k : Byte) : tableIndex k < Config.tableSize := k.isLt

theorem tableIndex_inj {j k : Byte} : tableIndex j = tableIndex k ↔ j = k := BitVec.toNat_inj

/-- Nothing is listed below the index that a canonical memory rises from. -/
theorem Memory.read_eq_none_of_lt {lo a : Nat} {t : Memory} (h : Memory.risingFrom lo t = true) (ha : a < lo) :
    t.read a = none := by
  induction t generalizing lo with
  | nil => rfl
  | cons cell rest ih =>
    obtain ⟨b, w⟩ := cell
    obtain ⟨hb, _, hrest⟩ := Memory.risingFrom_cons.mp h
    simp only at hb hrest
    have hne : a ≠ b := by omega
    simp only [Memory.read, hne, if_false]
    exact ih hrest (by omega)

theorem Memory.ext_risingFrom {lo lo' : Nat} {t u : Memory} (ht : Memory.risingFrom lo t = true)
    (hu : Memory.risingFrom lo' u = true) (h : ∀ a, t.read a = u.read a) : t = u := by
  induction t generalizing lo lo' u with
  | nil =>
    cases u with
    | nil => rfl
    | cons cell rest => have := h cell.1; simp [Memory.read] at this
  | cons cell rest ih =>
    cases u with
    | nil => have := h cell.1; simp [Memory.read] at this
    | cons cell' rest' =>
      obtain ⟨b, w⟩ := cell
      obtain ⟨b', w'⟩ := cell'
      obtain ⟨_, _, ht'⟩ := Memory.risingFrom_cons.mp ht
      obtain ⟨_, _, hu'⟩ := Memory.risingFrom_cons.mp hu
      simp only at ht' hu'
      have hbb : b = b' := by
        by_contra hne
        have h1 := h b
        have h2 := h b'
        simp only [Memory.read, if_true, hne, if_false] at h1
        simp only [Memory.read, if_true, Ne.symm hne, if_false] at h2
        rcases Nat.lt_or_gt_of_ne hne with hlt | hgt
        · rw [Memory.read_eq_none_of_lt hu' (by omega)] at h1; cases h1
        · rw [Memory.read_eq_none_of_lt ht' (by omega)] at h2; cases h2
      subst hbb
      have hw : w = w' := by simpa [Memory.read] using h b
      subst hw
      congr 1
      refine ih ht' hu' fun a => ?_
      by_cases hab : a = b
      · subst hab
        rw [Memory.read_eq_none_of_lt ht' (by omega), Memory.read_eq_none_of_lt hu' (by omega)]
      · simpa [Memory.read, hab] using h a

/-- Two memories in canonical form that read alike are equal data. -/
theorem Memory.ext_read {t u : Memory} (ht : t.wf = true) (hu : u.wf = true) (h : ∀ a, t.read a = u.read a) : t = u :=
  Memory.ext_risingFrom ht hu h

/-- The reset memories are in canonical form. -/
theorem State.reset_tables_wf : State.reset.sbox.wf = true ∧ State.reset.isbox.wf = true := ⟨rfl, rfl⟩

theorem State.memRead_memWrite_same (s : State) (t : Table) (k v : Byte) :
    (s.memWrite t k v).memRead t k = some v := by
  cases t <;> exact Memory.read_write_same _ _ _

/-- A write of one cell leaves every other cell of both tables alone. -/
theorem State.memRead_memWrite_other (s : State) {t t' : Table} {k k' : Byte} (v : Byte) (h : t' ≠ t ∨ k' ≠ k) :
    (s.memWrite t k v).memRead t' k' = s.memRead t' k' := by
  by_cases ht : t' = t
  · subst ht
    have hk : tableIndex k' ≠ tableIndex k := by simpa [tableIndex_inj] using h
    cases t' <;> exact Memory.read_write_other _ _ hk
  · cases t <;> cases t' <;> first | rfl | exact absurd rfl ht

/-- A write of one cell keeps the canonical form of both tables. -/
theorem State.memWrite_wf (s : State) (t : Table) (k v : Byte) (h : s.sbox.wf = true ∧ s.isbox.wf = true) :
    (s.memWrite t k v).sbox.wf = true ∧ (s.memWrite t k v).isbox.wf = true := by
  cases t
  · exact ⟨Memory.wf_write v (tableIndex_lt k) h.1, h.2⟩
  · exact ⟨h.1, Memory.wf_write v (tableIndex_lt k) h.2⟩

end Sys2Proof.Machine
end

