-- ==== Sys2Proof/Laws/Gen.lean ====
section
/-! SUPPORT. The multiplier's and the generator's loops keep what one iteration keeps. -/

namespace Sys2Proof.Machine

@[simp] theorem mulRun_zero (m : Modulus) (w : MulWork) : mulRun m w 0 = w := rfl

@[simp] theorem mulRun_succ (m : Modulus) (w : MulWork) (k : Nat) :
    mulRun m w (k + 1) = mulIteration m (mulRun m w k) := rfl

/-- What holds at the start of a loop and is kept by each iteration holds after it. -/
theorem foldl_invariant {α β : Type} {f : α → β → α} {P : α → Prop} (hf : ∀ a b, P a → P (f a b)) (l : List β)
    {a : α} (ha : P a) : P (l.foldl f a) := by
  induction l generalizing a with
  | nil => exact ha
  | cons b rest ih => exact ih (hf a b ha)

theorem zeroFill_wf {t : Memory} (h : t.wf = true) : (zeroFill t).wf = true := by
  unfold zeroFill
  generalize allBytes = l
  exact foldl_invariant (P := fun u : Memory => u.wf = true)
    (fun u k hu => Memory.wf_write 0x00 (tableIndex_lt k) hu) l h

/-- Both tables of the generator are in canonical form. -/
theorem gen_wf (m : Modulus) (c : Byte) : (gen m c).sbox.wf = true ∧ (gen m c).isbox.wf = true := by
  have hz := zeroFill_wf (t := []) rfl
  unfold gen
  generalize zeroFill [] = z at hz ⊢
  generalize allBytes = l
  exact foldl_invariant (P := fun t : TablePair => t.sbox.wf = true ∧ t.isbox.wf = true)
    (fun t i ht => ⟨Memory.wf_write _ (tableIndex_lt i) ht.1, Memory.wf_write _ (tableIndex_lt _) ht.2⟩) l
    ⟨rfl, hz⟩

/-- SBOXGEN's loops keep both memories in canonical form. -/
theorem sboxgenLoop_wf (m : Modulus) (c : Byte) {s : State} (h : s.sbox.wf = true ∧ s.isbox.wf = true) :
    (sboxgenLoop m c s).sbox.wf = true ∧ (sboxgenLoop m c s).isbox.wf = true := by
  unfold sboxgenLoop sboxgenStart
  generalize allBytes = l
  refine foldl_invariant (P := fun w : GenWork => w.machine.sbox.wf = true ∧ w.machine.isbox.wf = true)
    (fun w i hw => ?_) l ?_
  · simp only [sboxgenIteration]
    refine State.memWrite_wf _ _ _ _ ?_
    simp only [State.warnIf_sbox_eq, State.warnIf_isbox_eq]
    refine State.memWrite_wf _ _ _ _ ?_
    simpa only [State.warnIf_sbox_eq, State.warnIf_isbox_eq] using hw
  · exact foldl_invariant (P := fun t : State => t.sbox.wf = true ∧ t.isbox.wf = true)
      (fun t k ht => State.memWrite_wf t .isbox k 0x00 ht) l h

end Sys2Proof.Machine
end

