-- ==== Sys2Proof/Laws/Operands.lean ====
section
/-! SUPPORT. The operand forms: which shift fields ROTL takes, and which bytes a loop runs over, in which order. -/

namespace Sys2Proof.Machine

/-- ROTL's guard lets through exactly the shift fields 1 to 7, at their own value (spec/40_bit_rotation.md R82). -/
theorem shiftCount?_eq_some {s : ShiftField} {n : ShiftCount} : shiftCount? s = some n ↔ s.toNat = n.n := by
  unfold shiftCount?
  have hp := n.pos
  have hl := n.le_seven
  constructor
  · intro h
    split at h
    · cases h; rfl
    · cases h
  · intro h
    rw [dif_pos (by omega)]
    cases n
    simp_all

theorem shiftCount?_eq_none {s : ShiftField} : shiftCount? s = none ↔ s.toNat = 0 ∨ 8 ≤ s.toNat := by
  unfold shiftCount?
  split
  · simp; omega
  · simp; omega

theorem mem_bytesFromTo {a b : Nat} (hb : b < 256) {y : Byte} :
    y ∈ bytesFromTo a b ↔ a ≤ y.toNat ∧ y.toNat ≤ b := by
  simp only [bytesFromTo, List.mem_map, List.mem_range'_1]
  constructor
  · rintro ⟨k, hk, rfl⟩
    rw [BitVec.toNat_ofNat, Nat.mod_eq_of_lt (by omega)]
    omega
  · intro h
    exact ⟨y.toNat, by omega, by simp⟩

/-- The loops over a table visit every index. -/
@[simp] theorem mem_allBytes (y : Byte) : y ∈ allBytes := by
  have := y.isLt
  exact (mem_bytesFromTo (by decide)).mpr ⟨Nat.zero_le _, by simp only [Config.tableSize]; omega⟩

/-- The inverse search tries every byte but 0. -/
@[simp] theorem mem_candidates {y : Byte} : y ∈ candidates ↔ y ≠ 0 := by
  have := y.isLt
  rw [candidates, mem_bytesFromTo (by decide), Ne, ← BitVec.toNat_inj]
  simp only [Config.firstCandidate, Config.lastCandidate, BitVec.ofNat_eq_ofNat, BitVec.toNat_ofNat, Nat.zero_mod]
  omega

theorem pairwise_bytesFromTo {a b : Nat} (hb : b < 256) :
    (bytesFromTo a b).Pairwise (fun x y => x.toNat < y.toNat) := by
  rw [bytesFromTo, List.pairwise_map]
  refine (List.pairwise_lt_range' (s := a) (n := b + 1 - a) (step := 1)).imp_of_mem fun {i j} hi hj hij => ?_
  rw [List.mem_range'_1] at hi hj
  rw [BitVec.toNat_ofNat, BitVec.toNat_ofNat, Nat.mod_eq_of_lt (by omega), Nat.mod_eq_of_lt (by omega)]
  exact hij

/-- The loops over a table run in ascending order. -/
theorem pairwise_allBytes : allBytes.Pairwise (fun x y => x.toNat < y.toNat) := pairwise_bytesFromTo (by decide)

/-- The inverse search runs in ascending order. -/
theorem pairwise_candidates : candidates.Pairwise (fun x y => x.toNat < y.toNat) := pairwise_bytesFromTo (by decide)

end Sys2Proof.Machine
end

