-- ==== Sys2Proof/Laws/Ops.lean ====
section
/-! SUPPORT. Everything that each shared operation can do: one inversion lemma per operation, which later proofs cite
instead of unfolding it. -/

namespace Sys2Proof.Machine

/-- A completed byte-valued command answers one next state. -/
theorem complete_next {v : Byte} {s t : State} : complete v s = .next t ↔ t = s.writeR v := by
  simp [complete, eq_comm]

/-- A rejection answers one next state. -/
theorem raise_next {f : Flag} {s t : State} : raise f s = .next t ↔ t = s.setFlag f := by
  simp [raise, eq_comm]

/-- Where a load answers a next state, either the tables were valid and the cell went to `R`, or they were not and `NV`
was set. -/
theorem loadFrom_next {tab : Table} {idx : Byte} {s t : State} :
    loadFrom tab idx s = .next t ↔
      (s.flag .tv = true ∧ ∃ v, s.memRead tab idx = some v ∧ t = s.writeR v) ∨
      (s.flag .tv = false ∧ t = s.setFlag .nv) := by
  unfold loadFrom
  cases htv : s.flag .tv
  · simp [raise_next]
  · cases hm : s.memRead tab idx <;> simp [complete_next]

/-- A load stops in one case alone: valid tables with no value in the cell. -/
theorem loadFrom_fault {tab : Table} {idx : Byte} {s : State} {why : Fault} :
    loadFrom tab idx s = .fault why ↔
      s.flag .tv = true ∧ s.memRead tab idx = none ∧ why = .cellWithoutValue tab idx := by
  unfold loadFrom
  cases htv : s.flag .tv
  · simp [raise]
  · cases hm : s.memRead tab idx <;> simp [complete, eq_comm]

/-- A load is never refused. -/
theorem loadFrom_not_refused {tab : Table} {idx : Byte} {s : State} {why : Refusal} :
    loadFrom tab idx s ≠ .refused why := by
  unfold loadFrom
  cases htv : s.flag .tv
  · simp [raise]
  · cases hm : s.memRead tab idx <;> simp [complete]

/-- The three kinds of edge (spec/10_state.md R38; spec/70_reset_and_hazards.md R170). -/
theorem portEvent_cases (p : PortSample) :
    (p.rst = true ∧ portEvent p = .reset) ∨
    (p.rst = false ∧ p.cmdValid = true ∧ portEvent p = .accept p.cmdWord) ∨
    (p.rst = false ∧ p.cmdValid = false ∧ portEvent p = .idle) := by
  obtain ⟨rst, valid, w⟩ := p
  cases rst <;> cases valid <;> simp [portEvent, cmdReady]

@[simp] theorem portEvent_present (w : Word) : portEvent (present w) = .accept w := rfl

theorem State.takeEvent_nil {s : State} (h : s.inputs = []) : s.takeEvent = (.idle, s) := by
  simp [State.takeEvent, h]

theorem State.takeEvent_cons {s : State} {p : PortSample} {rest : List PortSample} (h : s.inputs = p :: rest) :
    s.takeEvent = (portEvent p, { s with inputs := rest }) := by
  simp [State.takeEvent, h]

end Sys2Proof.Machine
end

