-- ==== Sys2Proof/Laws/PerInstr.lean ====
section
/-! SUPPORT. One lemma per command of what is said of every command as syntax. -/

namespace Sys2Proof.Laws.EncodedRow

/-- The encoder gives a word of the command's own row of the opcode map (spec/30_encoding.md R64). -/
def Statement (i : Instr) : Prop := i.row.holds (encode i) = true

/-- A word is a row's when its bits under the mask are the row's. -/
theorem holds_of_bits {row : OpcodeRow} {w : Word}
    (h : ∀ k < 32, (w &&& row.mask).getLsbD k = row.pattern.getLsbD k) : row.holds w = true := by
  rw [OpcodeRow.holds, beq_iff_eq]
  exact BitVec.eq_of_getLsbD_eq h

theorem nop : Statement .nop := rfl

theorem rotl (s : ShiftField) (x : Byte) : Statement (.rotl s x) :=
  holds_of_bits fun k hk => by
    simp only [encode, Instr.row, rowRotl]
    interval_cases k <;> simp

theorem gfmul (m : Modulus) (a b : Byte) : Statement (.gfmul m a b) :=
  holds_of_bits fun k hk => by
    simp only [encode, Instr.row, rowGfmul]
    interval_cases k <;> simp

theorem gfinv (m : Modulus) (x : Byte) : Statement (.gfinv m x) :=
  holds_of_bits fun k hk => by
    simp only [encode, Instr.row, rowGfinv]
    interval_cases k <;> simp

theorem affine (c x : Byte) : Statement (.affine c x) :=
  holds_of_bits fun k hk => by
    simp only [encode, Instr.row, rowAffine]
    interval_cases k <;> simp

theorem sboxgen (m : Modulus) (c : Byte) : Statement (.sboxgen m c) :=
  holds_of_bits fun k hk => by
    simp only [encode, Instr.row, rowSboxgen]
    interval_cases k <;> simp

theorem lds (idx : Byte) : Statement (.lds idx) :=
  holds_of_bits fun k hk => by
    simp only [encode, Instr.row, rowLds]
    interval_cases k <;> simp

theorem ldi (idx : Byte) : Statement (.ldi idx) :=
  holds_of_bits fun k hk => by
    simp only [encode, Instr.row, rowLdi]
    interval_cases k <;> simp

theorem clrf : Statement .clrf := rfl

end Sys2Proof.Laws.EncodedRow
end

