-- ==== Sys2Proof/Tests/Slice0.lean ====
section
/-! SUPPORT. The model's own tests: expected values are those of spec/95_test_vectors.md or of the worked examples in
the rules named; and, at the end, a witness for the hypotheses of each statement that has some. -/

namespace Sys2Proof.Tests

open Sys2Proof.Machine

/-- The next state of an outcome, if it is one. -/
def nextOf : Result → Option State
  | .next s => some s
  | .fault _ => none
  | .refused _ => none

/-- The start state of the vectors: `R` and `STATUS` as given, all else as after reset. -/
def start (r : Byte) (status : StatusWord) : State := { State.reset with r := r, status := status }

/-- `R` and `STATUS` after a command. -/
def after (i : Instr) (s : State) : Option (Byte × StatusWord) := (nextOf (exec i s)).map fun t => (t.r, t.status)

/-- `R` and `STATUS` after a step in which the host presents that word. -/
def afterWord (w : Nat) (s : State) : Option (Byte × StatusWord) :=
  (nextOf (step (s.withFetchWord 32 w))).map fun t => (t.r, t.status)

/-! ## Well-formedness (R72): one ill-formed term for each operand check -/

theorem test_wf_refuses_wide_rotl_byte : (AsmCommand.rotl 256 1).wf = false := by decide
theorem test_wf_refuses_wide_shift : (AsmCommand.rotl 0x81 16).wf = false := by decide
theorem test_wf_refuses_wide_gfmul_a : (AsmCommand.gfmul 256 0 0x11D).wf = false := by decide
theorem test_wf_refuses_wide_gfmul_b : (AsmCommand.gfmul 0 256 0x11D).wf = false := by decide
theorem test_wf_refuses_wide_modulus : (AsmCommand.gfmul 0 0 0x200).wf = false := by decide
theorem test_wf_refuses_wide_gfinv : (AsmCommand.gfinv 256 0).wf = false ∧ (AsmCommand.gfinv 0 0x200).wf = false := by
  decide
theorem test_wf_refuses_wide_affine : (AsmCommand.affine 256 0).wf = false ∧ (AsmCommand.affine 0 256).wf = false := by
  decide
theorem test_wf_refuses_wide_sboxgen :
    (AsmCommand.sboxgen 0x200 0).wf = false ∧ (AsmCommand.sboxgen 0 256).wf = false := by decide
theorem test_wf_refuses_wide_index : (AsmCommand.lds 256).wf = false ∧ (AsmCommand.ldi 256).wf = false := by decide
theorem test_wf_accepts_shift_0_and_15 : (AsmCommand.rotl 0xA5 0).wf = true ∧ (AsmCommand.rotl 0xA5 15).wf = true := by
  decide

/-! ## Decoding: one word of each command from R62's patterns, then the illegal words of section 2.8 -/

theorem test_decode_nop : decode 0b0000_000_000000000_00000000_00000000 = .command .nop := by decide
theorem test_decode_rotl : decode 0b0001_000_000000000_0000_0111_10100101 = .command (.rotl 7 0xA5) := by decide
theorem test_decode_gfmul : decode 0b0010_000_111111111_11111111_11111111 = .command (.gfmul 0x1FF 0xFF 0xFF) := by
  decide
theorem test_decode_gfinv : decode 0b0011_000_100011101_00000000_00000010 = .command (.gfinv 0x11D 0x02) := by decide
theorem test_decode_affine : decode 0b0100_000_000000000_01100011_00000001 = .command (.affine 0x63 0x01) := by decide
theorem test_decode_sboxgen : decode 0b0101_000_100011101_01100011_00000000 = .command (.sboxgen 0x11D 0x63) := by
  decide
theorem test_decode_lds : decode 0b0110_000_000000000_00000000_01010011 = .command (.lds 0x53) := by decide
theorem test_decode_ldi : decode 0b0111_000_000000000_00000000_01100011 = .command (.ldi 0x63) := by decide
theorem test_decode_clrf : decode 0b1000_000_000000000_00000000_00000000 = .command .clrf := by decide

theorem test_decode_reserved_bits :
    [0x00000001, 0x80000001, 0x10001103, 0x12000181, 0x10010181, 0x311D0102, 0x411D6301, 0x511D6301, 0x60000100,
     0x7000FF00, 0x2E1D5783].all (fun w => decode w == .illegal .reservedBitSet) = true := by decide
theorem test_decode_reserved_opcodes :
    [0x90000000, 0xF0000000, 0xFFFFFFFF].all (fun w => decode w == .illegal .reservedOpcode) = true := by decide
theorem test_decode_shift_9_is_legal : decode 0x10000903 = .command (.rotl 9 0x03) := by decide
theorem test_decodeTableWord : decodeTableWord 32 0x211D5783 = some (.gfmul 0x11D 0x57 0x83) := by decide
theorem test_opcode_map_is_disjoint :
    opcodeMap.Pairwise (fun a b => a.pattern &&& b.mask ≠ b.pattern &&& a.mask) := by decide

/-! ## Encoding and the assembler (R72) -/

theorem test_encode_rotl : encode (.rotl 1 0x81) = 0x10000181 := by decide
theorem test_encode_sboxgen : encode (.sboxgen 0x11D 0x63) = 0x511D6300 := by decide
theorem test_assemble_operand_order :
    assembleLine "GFMUL 0x57, 0x83, 0x11D ; the trace".toList = .command (.gfmul 0x11D 0x57 0x83) := by decide +kernel
theorem test_assemble_refuses_pseudo_instruction :
    assembleLine "AESBOX".toList = .refused .unknownMnemonic ∧ assembleLine "  ; comment".toList = .blank ∧
    assembleLine "LDS 256".toList = .refused .operandOutOfRange ∧
    assembleLine "LDS 1, 2".toList = .refused .operandCount ∧
    assembleLine "LDS 0xG".toList = .refused .badNumber := by decide +kernel

/-! ## The functions -/

theorem test_rotl_table : [shift1, shift2, shift3, shift4].map (rotl8 0xCA) = [0x95, 0x2B, 0x56, 0xAC] := by decide
theorem test_gfmul_trace_first_reduction : mulRun 0x11D (mulStart 0x57 0x83) 2 = ⟨0x0F9, 0x041, 0x20⟩ := by decide
theorem test_gfmul_trace_end : mulRun 0x11D (mulStart 0x57 0x83) 8 = ⟨0x031, 0x08D, 0x00⟩ := by decide +kernel
theorem test_gfmul_bit8_clear : gfmul 0x04 0x80 0x01D = 0x3A := by decide +kernel
theorem test_unbounded_tests_differ :
    unboundedMul setsBit8 0x04 0x80 0x01D = 0x3A ∧ unboundedMul atLeast0x100 0x04 0x80 0x01D = 0x27 := by
  decide +kernel
theorem test_gfinv_0x11D : gfinv 0x10 0x11B = 0x74 := by decide +kernel
theorem test_gfinv_sentinel : gfinv 0x02 0x100 = 0x00 := by decide +kernel
theorem test_lin_row : (bytesFromTo 0x80 0x87).map lin = [0x8F, 0x90, 0xB1, 0xAE, 0xF3, 0xEC, 0xCD, 0xD2] := by
  decide +kernel
theorem test_gen_iteration :
    genIteration 0x11B 0x63 ⟨[], []⟩ 0x05 = ⟨[(0x05, 0x6B)], [(0x6B, 0x05)]⟩ := by decide +kernel

/-! ## The commands, each in one step -/

theorem test_nop_changes_nothing : afterWord 0x00000000 (start 0x5A 0b011001) = some (0x5A, 0b011001) := by decide
theorem test_rotl_wraps : after (.rotl 7 0x81) (start 0xEE 0) = some (0xC0, 0b000000) := by decide
theorem test_rotl_rejects_8 : after (.rotl 8 0xA5) (start 0xEE 0) = some (0xEE, 0b000100) := by decide
theorem test_gfmul_word : afterWord 0x211D5783 (start 0xEE 0) = some (0x31, 0b000000) := by decide +kernel
theorem test_gfmul_five_reductions : after (.gfmul 0x11D 0xFF 0xFF) (start 0xEE 0) = some (0xE2, 0b000000) := by
  decide +kernel
theorem test_gfinv_true_zero : after (.gfinv 0x100 0x00) (start 0xEE 0) = some (0x00, 0b000000) := by decide +kernel
theorem test_gfinv_warns : after (.gfinv 0x11A 0x03) (start 0xEE 0b000010) = some (0x00, 0b001010) := by decide +kernel
theorem test_affine_word : afterWord 0x4000AA53 (start 0xEE 0) = some (0xBD, 0b000000) := by decide
theorem test_affine_aes : after (.affine 0x63 0x1C) (start 0xEE 0) = some (0x16, 0b000000) := by decide
theorem test_sboxgen_records :
    ∃ t, exec (.sboxgen 0x11D 0x63) (start 0xEE 0) = .next t ∧ t.gmod = 0x11D ∧ t.gconst = 0x63 ∧ t.flag .tv = true :=
  ⟨_, rfl, rfl, rfl, State.flag_setFlag_same _ _⟩
/-- Two iterations without an inverse: the second meets the first one's `ISBOX` slot (section 2.7). -/
theorem test_sboxgen_collision :
    (let w := sboxgenIteration 0x100 0x63 (sboxgenIteration 0x100 0x63 ⟨State.reset, 0⟩ 0x00) 0x02
     (w.machine.status, w.machine.sbox, w.machine.isbox)) =
      (0b011000, [(0x00, 0x63), (0x02, 0x63)], [(0x63, 0x02)]) := by decide +kernel
theorem test_lds_reads : after (.lds 0xFF) { start 0xEE 1 with sbox := [(0xFF, 0xA2)] } = some (0xA2, 0b000001) := by
  decide
theorem test_lds_rejects : after (.lds 0x00) (start 0xEE 0) = some (0xEE, 0b100000) := by decide
theorem test_ldi_reads_its_own_table :
    after (.ldi 0x16) { start 0xEE 1 with sbox := [(0x16, 0x47)], isbox := [(0x16, 0xFF)] } =
      some (0xFF, 0b000001) := by decide
theorem test_ldi_rejects : after (.ldi 0x63) (start 0xEE 0) = some (0xEE, 0b100000) := by decide
theorem test_clrf_keeps_tv : afterWord 0x80000000 (start 0x5A 0b111111) = some (0x5A, 0b000001) := by decide
theorem test_illegal_word_over_nv : afterWord 0x60000100 (start 0x5A 0) = some (0x5A, 0b000010) := by decide
/-- Reset overrides a word presented with it (program P6). -/
theorem test_reset_edge :
    nextOf (step { start 0xA2 0b000101 with gmod := 0x11D, gconst := 0x63, inputs := [⟨true, true, 0x511D6300⟩] }) =
      some State.reset := by decide
theorem test_idle_edge :
    nextOf (step { start 0xA2 1 with inputs := [⟨false, false, 0x80000001⟩] }) = some (start 0xA2 1) := by decide
/-- Every command runs as the first command after reset; SBOXGEN is not evaluated past its outcome. -/
theorem test_first_command_completes :
    ∃ t, step (State.reset.withFetchWord 32 0x511D6300) = .next t ∧ t.gmod = 0x11D := ⟨_, rfl, rfl⟩

/-! ## Witnesses: states and operands that meet the hypotheses of the statements -/

/-- A state in which the tables are as recorded. -/
def tablesState (m : Modulus) (c : Byte) : State :=
  { State.reset with
    status := 0b000001, gmod := m, gconst := c, sbox := (gen m c).sbox, isbox := (gen m c).isbox }

/-- An input of one edge. -/
def driven (p : PortSample) : State := { State.reset with inputs := [p] }

theorem witness_StepRunsAcceptedCommand :
    (driven (present 0x10000181)).inputs = present 0x10000181 :: [] ∧ (present 0x10000181).rst = false ∧
    (present 0x10000181).cmdValid = true ∧ decode (present 0x10000181).cmdWord = .command (.rotl 1 0x81) := by decide

theorem witness_IllegalWordSetsIllAlone :
    (driven (present 0x10001103)).inputs = present 0x10001103 :: [] ∧ (present 0x10001103).rst = false ∧
    (present 0x10001103).cmdValid = true ∧
    ∀ row ∈ opcodeMap, (present 0x10001103).cmdWord &&& row.mask ≠ row.pattern := by decide

theorem witness_IdleEdgeKeepsState :
    State.reset.inputs = [] ∧ (driven ⟨false, false, 0⟩).inputs = ⟨false, false, 0⟩ :: [] := by decide

theorem witness_ResetEdgeGivesResetRegisters :
    (driven ⟨true, true, 0⟩).inputs = ⟨true, true, 0⟩ :: [] ∧ (⟨true, true, 0⟩ : PortSample).rst = true := by decide

theorem witness_StepTakesOneEdge : step (driven (present 0)) = .next State.reset := rfl

theorem witness_DecoderFollowsOpcodeMap :
    decode 0x10000181 = .command (.rotl 1 0x81) ∧ rowRotl ∈ opcodeMap ∧
    (0x10000181 : Word) &&& rowRotl.mask = rowRotl.pattern := by decide

theorem witness_DecodeAndEncodeAgree : decode 0x21FFFFFF = .command (.gfmul 0x1FF 0xFF 0xFF) := by decide

/-- A reserved bit in each format that has one to spare, and the first and last reserved opcode. -/
theorem witness_ReservedEncodingsAreIllegal :
    (rowRotl ∈ opcodeMap ∧ (0x10001103 : Word).toNat / 2 ^ 28 = rowRotl.pattern.toNat / 2 ^ 28 ∧
      (0x10001103 : Word) &&& rowRotl.mask ≠ rowRotl.pattern) ∧
    9 ≤ (0x90000000 : Word).toNat / 2 ^ 28 ∧ 9 ≤ (0xFFFFFFFF : Word).toNat / 2 ^ 28 := by decide

/-- The word clause, and the shift fields where the two clauses meet: 0, 1, 7, 8 and 15. -/
theorem witness_RotlRotatesOrRejects :
    (0x10000FFF : Word) &&& 0xFFFFF000 = 0x10000000 ∧
    (1 ≤ (1 : ShiftField).toNat ∧ (1 : ShiftField).toNat ≤ 7) ∧
    (1 ≤ (7 : ShiftField).toNat ∧ (7 : ShiftField).toNat ≤ 7) ∧
    ((0 : ShiftField).toNat = 0 ∨ 8 ≤ (0 : ShiftField).toNat) ∧
    ((8 : ShiftField).toNat = 0 ∨ 8 ≤ (8 : ShiftField).toNat) ∧
    ((15 : ShiftField).toNat = 0 ∨ 8 ≤ (15 : ShiftField).toNat) := by decide

/-- A sum of counts that wraps to a count, one that wraps to 0, and a complement. -/
theorem witness_RotationLaws :
    shift1.n = ((⟨5, by decide, by decide⟩ : ShiftCount).n + shift4.n) % 8 ∧ (shift4.n + shift4.n) % 8 = 0 ∧
    shift4.n = 8 - shift4.n := by decide

theorem witness_GfmulWritesProduct : (0x21FFFFFF : Word) &&& 0xFE000000 = 0x20000000 := by decide

theorem witness_MultiplierAgreesWithUnboundedIntegers : (0x100 : Modulus).getLsbD 8 = true := by decide

theorem witness_ProductIsPolynomialRemainder : (0x11D : Modulus).getLsbD 8 = true := by decide

theorem witness_GfinvWritesInverseAndWarns : (0x31FF00FF : Word) &&& 0xFE00FF00 = 0x30000000 := by decide

/-- Both sides of the first-hit clause and of the sentinel clause are met: a nonzero byte, and a byte without an
inverse. -/
theorem witness_InverseIsFirstHit :
    (0x74 : Byte) ≠ 0 ∧ gfinv 0x10 0x11B = 0x74 ∧ gfinv 0x02 0x100 = 0 := by decide +kernel

/-- The inverses of 0 to 127 under `0x11D` (spec/95_test_vectors.md section 2.3). -/
def inversesLow : List Byte :=
  [0x00, 0x01, 0x8E, 0xF4, 0x47, 0xA7, 0x7A, 0xBA, 0xAD, 0x9D, 0xDD, 0x98, 0x3D, 0xAA, 0x5D, 0x96] ++
  [0xD8, 0x72, 0xC0, 0x58, 0xE0, 0x3E, 0x4C, 0x66, 0x90, 0xDE, 0x55, 0x80, 0xA0, 0x83, 0x4B, 0x2A] ++
  [0x6C, 0xED, 0x39, 0x51, 0x60, 0x56, 0x2C, 0x8A, 0x70, 0xD0, 0x1F, 0x4A, 0x26, 0x8B, 0x33, 0x6E] ++
  [0x48, 0x89, 0x6F, 0x2E, 0xA4, 0xC3, 0x40, 0x5E, 0x50, 0x22, 0xCF, 0xA9, 0xAB, 0x0C, 0x15, 0xE1] ++
  [0x36, 0x5F, 0xF8, 0xD5, 0x92, 0x4E, 0xA6, 0x04, 0x30, 0x88, 0x2B, 0x1E, 0x16, 0x67, 0x45, 0x93] ++
  [0x38, 0x23, 0x68, 0x8C, 0x81, 0x1A, 0x25, 0x61, 0x13, 0xC1, 0xCB, 0x63, 0x97, 0x0E, 0x37, 0x41] ++
  [0x24, 0x57, 0xCA, 0x5B, 0xB9, 0xC4, 0x17, 0x4D, 0x52, 0x8D, 0xEF, 0xB3, 0x20, 0xEC, 0x2F, 0x32] ++
  [0x28, 0xD1, 0x11, 0xD9, 0xE9, 0xFB, 0xDA, 0x79, 0xDB, 0x77, 0x06, 0xBB, 0x84, 0xCD, 0xFE, 0xFC]

/-- The inverses of 128 to 255 under `0x11D`. -/
def inversesHigh : List Byte :=
  [0x1B, 0x54, 0xA1, 0x1D, 0x7C, 0xCC, 0xE4, 0xB0, 0x49, 0x31, 0x27, 0x2D, 0x53, 0x69, 0x02, 0xF5] ++
  [0x18, 0xDF, 0x44, 0x4F, 0x9B, 0xBC, 0x0F, 0x5C, 0x0B, 0xDC, 0xBD, 0x94, 0xAC, 0x09, 0xC7, 0xA2] ++
  [0x1C, 0x82, 0x9F, 0xC6, 0x34, 0xC2, 0x46, 0x05, 0xCE, 0x3B, 0x0D, 0x3C, 0x9C, 0x08, 0xBE, 0xB7] ++
  [0x87, 0xE5, 0xEE, 0x6B, 0xEB, 0xF2, 0xBF, 0xAF, 0xC5, 0x64, 0x07, 0x7B, 0x95, 0x9A, 0xAE, 0xB6] ++
  [0x12, 0x59, 0xA5, 0x35, 0x65, 0xB8, 0xA3, 0x9E, 0xD2, 0xF7, 0x62, 0x5A, 0x85, 0x7D, 0xA8, 0x3A] ++
  [0x29, 0x71, 0xC8, 0xF6, 0xF9, 0x43, 0xD7, 0xD6, 0x10, 0x73, 0x76, 0x78, 0x99, 0x0A, 0x19, 0x91] ++
  [0x14, 0x3F, 0xE6, 0xF0, 0x86, 0xB1, 0xE2, 0xF1, 0xFA, 0x74, 0xF3, 0xB4, 0x6D, 0x21, 0xB2, 0x6A] ++
  [0xE3, 0xE7, 0xB5, 0xEA, 0x03, 0x8F, 0xD3, 0xC9, 0x42, 0xD4, 0xE8, 0x75, 0x7F, 0xFF, 0x7E, 0xFD]

/-- The byte that the table of section 2.3 gives at an index. -/
def tableInverse (x : Byte) : Byte := (inversesLow ++ inversesHigh).getD x.toNat 0

theorem test_inverse_table_products :
    (allBytes.all fun x => x == 0 || gfmul x (tableInverse x) 0x11D == 1) = true := by decide +kernel

/-- `0x11D` is a valid modulus, the hypothesis of the inverse laws and of the permutation property. -/
theorem witness_ValidModulus : ValidModulus 0x11D := by
  refine ⟨by decide, fun x hx => ⟨tableInverse x, ?_⟩⟩
  have h := List.all_eq_true.mp test_inverse_table_products x (mem_allBytes x)
  rw [Bool.or_eq_true, beq_iff_eq, beq_iff_eq] at h
  exact h.resolve_left hx

theorem witness_InverseLaws :
    ValidModulus 0x11D ∧ (0xFF : Byte) ≠ 0 ∧ gfinv 0x10 0x11B ≠ 0 ∧ (0x11D : Modulus).getLsbD 8 = true ∧
    gfmul 0x02 0x8E 0x11D = 1 :=
  ⟨witness_ValidModulus, by decide, by decide +kernel, by decide, by decide +kernel⟩

theorem witness_AffineWritesTransform : (0x4000FFFF : Word) &&& 0xFFFF0000 = 0x40000000 := by decide

theorem witness_SboxgenFillsBothTables :
    (0x51FFFF00 : Word) &&& 0xFE0000FF = 0x50000000 ∧ State.reset.sbox.wf = true ∧ State.reset.isbox.wf = true := by
  decide

/-- Under `0x100` two inputs share the entry `0x63`, so that a largest one exists, and by counting some byte is no entry
at all: both clauses of the statement are met. -/
theorem witness_InverseTableKeepsLargestIndex :
    (affine (gfinv 0x00 0x100) 0x63 = 0x63 ∧ affine (gfinv 0x02 0x100) 0x63 = 0x63) ∧
    ∃ v : Byte, ∀ i : Byte, affine (gfinv i 0x100) 0x63 ≠ v := by
  have h0 : affine (gfinv 0x00 0x100) 0x63 = 0x63 := by decide +kernel
  have h2 : affine (gfinv 0x02 0x100) 0x63 = 0x63 := by decide +kernel
  refine ⟨⟨h0, h2⟩, ?_⟩
  by_contra hall
  push Not at hall
  have hinj := (Finite.injective_iff_surjective (f := fun i : Byte => affine (gfinv i 0x100) 0x63)).mpr hall
  exact absurd (hinj (h0.trans h2.symm)) (by decide)

theorem witness_ValidModulusGivesInversePermutations : ValidModulus 0x11D := witness_ValidModulus

theorem witness_WarningsRiseTogether : State.reset.flag .noinv = false ∧ State.reset.flag .coll = false := by decide

theorem witness_CollisionFlagDecidesRoundTrip : State.reset.flag .coll = false := by decide

/-- The words of both loads, a state of each clause, at the first and the last index. -/
theorem witness_LoadsReadOrReject :
    ((0x600000FF : Word) &&& 0xFFFFFF00 = 0x60000000 ∧ (0x700000FF : Word) &&& 0xFFFFFF00 = 0x70000000) ∧
    State.reset.flag .tv = false ∧
    (let s : State := { start 0 1 with sbox := [(0, 0x63), (255, 0xA2)], isbox := [(0, 0xA7), (255, 0xE8)] }
     s.flag .tv = true ∧ s.sbox.read (0x00 : Byte).toNat = some 0x63 ∧ s.sbox.read (0xFF : Byte).toNat = some 0xA2 ∧
     s.isbox.read (0x00 : Byte).toNat = some 0xA7 ∧ s.isbox.read (0xFF : Byte).toNat = some 0xE8) := by decide

theorem witness_CoreInv_tablesState (m : Modulus) (c : Byte) : CoreInv (tablesState m c) := by
  have h := gen_wf m c
  unfold tablesState CoreInv TablesAsRecorded
  dsimp only
  exact ⟨h.1, h.2, fun _ => ⟨rfl, rfl⟩⟩

theorem witness_ValidTablesHoldEveryCell :
    CoreInv (tablesState 0x11D 0x63) ∧ (tablesState 0x11D 0x63).flag .tv = true :=
  ⟨witness_CoreInv_tablesState _ _, rfl⟩

/-- A state of the invariant, and the state outside it in which a load stops. -/
theorem witness_OnlyALoadWithoutValueStops :
    CoreInv (tablesState 0x11D 0x63) ∧ (start 0 1).flag .tv = true ∧ (start 0 1).memRead .sbox 0x00 = none :=
  ⟨witness_CoreInv_tablesState _ _, by decide, by decide⟩

theorem witness_LoadIsRepeatable :
    exec (.lds 0x00) State.reset = .next (start 0 0b100000) ∧ exec (.ldi 0x00) State.reset = .next (start 0 0b100000) :=
  ⟨rfl, rfl⟩

theorem witness_NopAndClrf : (0x00000001 : Word).toNat / 2 ^ 28 = 0 ∧ (0x00000001 : Word) ≠ 0 := by decide

/-- Each way in which a flag can drop, and a command that keeps a set flag. -/
theorem witness_FlagsAreSticky :
    (exec .nop (start 0 0b111110) = .next (start 0 0b111110) ∧ (start 0 0b111110).flag .coll = true) ∧
    (exec .clrf (start 0 0b111111) = .next (start 0 0b000001) ∧ (start 0 0b111111).flag .tv = true) ∧
    (step { start 0 0b111111 with inputs := [present 0x80000000] } = .next (start 0 0b000001) ∧
      (start 0 0b000001).flag .nv = false) ∧
    step { start 0 0b111111 with inputs := [⟨true, false, 0⟩] } = .next (start 0 0b000000) :=
  ⟨⟨rfl, rfl⟩, ⟨rfl, rfl⟩, ⟨rfl, rfl⟩, rfl⟩

theorem witness_CommandsRaiseOnlyTheirFlags :
    (exec (.rotl 0 0x00) State.reset = .next (start 0 0b000100) ∧ (start 0 0b000100).flag .rng = true) ∧
    ∃ t, exec (.sboxgen 0x11D 0x63) State.reset = .next t ∧ State.reset.flag .tv = false ∧ t.flag .tv = true :=
  ⟨⟨rfl, rfl⟩, _, rfl, rfl, State.flag_setFlag_same _ _⟩

theorem witness_RejectionWritesOnlyItsFlag :
    exec (.rotl 0 0x00) State.reset = .next (start 0 0b000100) ∧ .rng ∈ rejectionFlags ∧
    State.reset.flag .rng = false ∧ (start 0 0b000100).flag .rng = true := ⟨rfl, by decide, rfl, rfl⟩

theorem witness_OnlySboxgenWritesTables :
    exec (.affine 0x63 0x01) State.reset = .next (start 0x7C 0) ∧ (∀ m c, Instr.affine 0x63 0x01 ≠ .sboxgen m c) ∧
    ∃ t, exec (.sboxgen 0x11D 0x63) State.reset = .next t :=
  ⟨rfl, by simp, _, rfl⟩

theorem witness_NoCommandReadsResultOrRecords : exec (.affine 0x63 0x01) State.reset = .next (start 0x7C 0) := rfl

theorem witness_ErrorFlagsNeverSteer :
    SameButErrorFlags (start 0 0b000001) (start 0 0b111111) ∧
    exec .nop (start 0 0b000001) = .next (start 0 0b000001) ∧
    exec (.lds 0x00) (start 0 0b000001) = .fault (.cellWithoutValue .sbox 0x00) :=
  ⟨⟨rfl, rfl, rfl, rfl, rfl, rfl, rfl⟩, rfl, rfl⟩

theorem witness_StepKeepsInvariant :
    CoreInv (tablesState 0x11D 0x63) ∧ step (tablesState 0x11D 0x63) = .next (tablesState 0x11D 0x63) :=
  ⟨witness_CoreInv_tablesState _ _, rfl⟩

theorem witness_RunsNeverStop : CoreInv (tablesState 0x11D 0x63) := witness_CoreInv_tablesState _ _

/-- One word that is an SBOXGEN, and a start state for it. -/
theorem witness_TablesValidExactlyAfterSboxgen :
    (driven (present 0x511D6300)).inputs = [0x511D6300].map present ∧
    (∃ t, Host.Core.run Sys2Proof.core [(0x511D6300 : Word)].length (driven (present 0x511D6300)) = .next t) ∧
    (0x511D6300 : Word) &&& 0xFE0000FF = 0x50000000 := ⟨rfl, ⟨_, rfl⟩, by decide⟩

end Sys2Proof.Tests
end

section
/-! One inversion lemma per command and one for the step: every way in which each answers a next state. -/

namespace Sys2Proof.Machine

theorem exec_nop_next {s t : State} : exec .nop s = .next t ↔ t = s := by
  simp [exec, execNop, eq_comm]

/-- ROTL completes for the shift fields 1 to 7 and is rejected for the others (spec/40_bit_rotation.md R82). -/
theorem exec_rotl_next {sh : ShiftField} {x : Byte} {s t : State} :
    exec (.rotl sh x) s = .next t ↔
      (∃ n, shiftCount? sh = some n ∧ t = s.writeR (rotl8 x n)) ∨
      (shiftCount? sh = none ∧ t = s.setFlag .rng) := by
  simp only [exec, execRotl]
  cases hn : shiftCount? sh with
  | none => simp [raise_next]
  | some n => simp [complete_next]

theorem exec_gfmul_next {m : Modulus} {a b : Byte} {s t : State} :
    exec (.gfmul m a b) s = .next t ↔ t = s.writeR (gfmul a b m) := complete_next

theorem exec_gfinv_next {m : Modulus} {x : Byte} {s t : State} :
    exec (.gfinv m x) s = .next t ↔ t = (s.warnIf (lacksInverse x m) .noinv).writeR (gfinv x m) := complete_next

theorem exec_affine_next {c x : Byte} {s t : State} :
    exec (.affine c x) s = .next t ↔ t = s.writeR (affine x c) := complete_next

theorem exec_sboxgen_next {m : Modulus} {c : Byte} {s t : State} :
    exec (.sboxgen m c) s = .next t ↔ t = ((sboxgenLoop m c s).recordParams m c).setFlag .tv := by
  simp [exec, execSboxgen, eq_comm]

theorem exec_lds_next {idx : Byte} {s t : State} :
    exec (.lds idx) s = .next t ↔
      (s.flag .tv = true ∧ ∃ v, s.memRead .sbox idx = some v ∧ t = s.writeR v) ∨
      (s.flag .tv = false ∧ t = s.setFlag .nv) := loadFrom_next

theorem exec_ldi_next {idx : Byte} {s t : State} :
    exec (.ldi idx) s = .next t ↔
      (s.flag .tv = true ∧ ∃ v, s.memRead .isbox idx = some v ∧ t = s.writeR v) ∨
      (s.flag .tv = false ∧ t = s.setFlag .nv) := loadFrom_next

theorem exec_clrf_next {s t : State} : exec .clrf s = .next t ↔ t = s.clearErrors := by
  simp [exec, execClrf, eq_comm]

/-- A step's next state comes from an idle edge, a reset edge, an accepted command or an accepted illegal word
(spec/10_state.md R38, R39; spec/60_exceptions.md R152). -/
theorem step_next {s t : State} :
    step s = .next t ↔
      (s.takeEvent.1 = .idle ∧ t = s.takeEvent.2) ∨
      (s.takeEvent.1 = .reset ∧ t = s.takeEvent.2.applyReset) ∨
      (∃ w i, s.takeEvent.1 = .accept w ∧ decode w = .command i ∧ exec i s.takeEvent.2 = .next t) ∨
      (∃ w why, s.takeEvent.1 = .accept w ∧ decode w = .illegal why ∧ t = s.takeEvent.2.setFlag .ill) := by
  unfold step
  obtain ⟨event, s'⟩ := s.takeEvent
  cases event with
  | idle => simp [eq_comm]
  | reset => simp [eq_comm]
  | accept w =>
    cases hd : decode w with
    | command i => simp [hd]
    | illegal why => simp [hd, execIllegal, raise_next]

end Sys2Proof.Machine
end

section
/-! What the host drives: taking an edge removes it from the input, and no command touches what is left. -/

namespace Sys2Proof.Machine

/-- Taking an edge leaves the tail of the input; with nothing driven, that is nothing again. -/
@[simp] theorem State.takeEvent_inputs (s : State) : s.takeEvent.2.inputs = s.inputs.tail := by
  cases h : s.inputs with
  | nil => simp [State.takeEvent_nil h, h]
  | cons p rest => simp [State.takeEvent_cons h]

@[simp] theorem sboxgenStart_inputs (s : State) : (sboxgenStart s).machine.inputs = s.inputs := by
  unfold sboxgenStart
  generalize allBytes = l
  exact foldl_invariant (P := fun u : State => u.inputs = s.inputs)
    (fun u k hu => (State.memWrite_isbox_inputs_eq u k 0x00).trans hu) l rfl

@[simp] theorem sboxgenIteration_inputs (m : Modulus) (c : Byte) (w : GenWork) (i : Byte) :
    (sboxgenIteration m c w i).machine.inputs = w.machine.inputs := by
  simp [sboxgenIteration]

@[simp] theorem sboxgenLoop_inputs (m : Modulus) (c : Byte) (s : State) :
    (sboxgenLoop m c s).inputs = s.inputs := by
  unfold sboxgenLoop
  generalize allBytes = l
  exact foldl_invariant (P := fun w : GenWork => w.machine.inputs = s.inputs)
    (fun w i hw => (sboxgenIteration_inputs m c w i).trans hw) l (sboxgenStart_inputs s)

/-- No command reads or writes what the host drives later. -/
theorem exec_inputs {i : Instr} {s t : State} (h : exec i s = .next t) : t.inputs = s.inputs := by
  cases i with
  | nop => rw [exec_nop_next.mp h]
  | rotl sh x => obtain ⟨n, -, rfl⟩ | ⟨-, rfl⟩ := exec_rotl_next.mp h <;> simp
  | gfmul m a b => simp [exec_gfmul_next.mp h]
  | gfinv m x => simp [exec_gfinv_next.mp h]
  | affine c x => simp [exec_affine_next.mp h]
  | sboxgen m c => simp [exec_sboxgen_next.mp h]
  | lds idx => obtain ⟨-, v, -, rfl⟩ | ⟨-, rfl⟩ := exec_lds_next.mp h <;> simp
  | ldi idx => obtain ⟨-, v, -, rfl⟩ | ⟨-, rfl⟩ := exec_ldi_next.mp h <;> simp
  | clrf => simp [exec_clrf_next.mp h]

/-- Settles O7: each kind of edge leaves the inputs of the state that `takeEvent` answers as they are. -/
theorem stepTakesOneEdge : Obligations.StepTakesOneEdge := by
  intro s t h
  obtain ⟨-, rfl⟩ | ⟨-, rfl⟩ | ⟨w, i, -, -, hexec⟩ | ⟨w, why, -, -, rfl⟩ := step_next.mp h
  · exact s.takeEvent_inputs
  · simp
  · rw [exec_inputs hexec, s.takeEvent_inputs]
  · simp

end Sys2Proof.Machine
end

section
/-! The decoder as one equivalence: a word decodes to a command exactly when it is in the command's row and the
command's operands are the word's fields (spec/30_encoding.md R64, R71). -/

namespace Sys2Proof

theorem OpcodeRow.holds_iff {row : OpcodeRow} {w : Word} : row.holds w = true ↔ w &&& row.mask = row.pattern := by
  simp [OpcodeRow.holds]

/-- A word of one row is in no row whose pattern differs under the common mask (R64). -/
theorem OpcodeRow.holds_eq_false {row row' : OpcodeRow} {w : Word} (h : row.holds w = true)
    (hd : row.pattern &&& row'.mask ≠ row'.pattern &&& row.mask) : row'.holds w = false := by
  rw [← Bool.not_eq_true]
  intro h'
  rw [OpcodeRow.holds_iff] at h h'
  rw [← h, ← h', BitVec.and_assoc, BitVec.and_assoc, BitVec.and_comm row.mask] at hd
  exact hd rfl

theorem opcodeMap_disjoint : ∀ row ∈ opcodeMap, ∀ row' ∈ opcodeMap, row' ≠ row →
    row.pattern &&& row'.mask ≠ row'.pattern &&& row.mask := by decide

/-- A word of one row of the opcode map is in no other row (R64). -/
theorem OpcodeRow.holds_eq_decide {row row' : OpcodeRow} {w : Word} (hrow : row ∈ opcodeMap) (hrow' : row' ∈ opcodeMap)
    (h : row.holds w = true) : row'.holds w = decide (row' = row) := by
  by_cases heq : row' = row
  · simp [heq, h]
  · simpa [heq] using OpcodeRow.holds_eq_false h (opcodeMap_disjoint row hrow row' hrow' heq)

theorem Instr.row_mem (i : Instr) : i.row ∈ opcodeMap := by
  cases i <;> simp [Instr.row, opcodeMap]

/-- The command of the same row whose operands are the fields of a word (R61, R63). -/
def Instr.withFieldsOf (w : Word) : Instr → Instr
  | .nop => .nop
  | .rotl _ _ => .rotl (shiftField w) (loField w)
  | .gfmul _ _ _ => .gfmul (modulusField w) (hiField w) (loField w)
  | .gfinv _ _ => .gfinv (modulusField w) (loField w)
  | .affine _ _ => .affine (hiField w) (loField w)
  | .sboxgen _ _ => .sboxgen (modulusField w) (hiField w)
  | .lds _ => .lds (loField w)
  | .ldi _ => .ldi (loField w)
  | .clrf => .clrf

theorem decode_of_row_holds {i : Instr} {w : Word} (h : i.row.holds w = true) :
    decode w = .command (i.withFieldsOf w) := by
  have hrows : ∀ row ∈ opcodeMap, row.holds w = decide (row = i.row) :=
    fun row hrow => OpcodeRow.holds_eq_decide i.row_mem hrow h
  simp only [opcodeMap, List.forall_mem_cons] at hrows
  obtain ⟨hnop, hrotl, hgfmul, hgfinv, haffine, hsboxgen, hlds, hldi, hclrf, -⟩ := hrows
  unfold decode
  rw [hnop, hrotl, hgfmul, hgfinv, haffine, hsboxgen, hlds, hldi, hclrf]
  cases i <;> rfl

/-- The decoder's test of a row answers that row's command, with the word's fields as operands. -/
theorem row_holds_of_decode {i : Instr} {w : Word} (h : decode w = .command i) :
    i.row.holds w = true ∧ i.withFieldsOf w = i := by
  unfold decode at h
  split_ifs at h with hrow hrow hrow hrow hrow hrow hrow hrow hrow <;> cases h <;> exact ⟨hrow, rfl⟩

theorem decode_eq_command {i : Instr} {w : Word} :
    decode w = .command i ↔ i.row.holds w = true ∧ i.withFieldsOf w = i := by
  refine ⟨row_holds_of_decode, fun ⟨hrow, hfields⟩ => ?_⟩
  rw [decode_of_row_holds hrow, hfields]

theorem row_holds_encode (i : Instr) : i.row.holds (encode i) = true := by
  cases i with
  | nop => exact Laws.EncodedRow.nop
  | rotl s x => exact Laws.EncodedRow.rotl s x
  | gfmul m a b => exact Laws.EncodedRow.gfmul m a b
  | gfinv m x => exact Laws.EncodedRow.gfinv m x
  | affine c x => exact Laws.EncodedRow.affine c x
  | sboxgen m c => exact Laws.EncodedRow.sboxgen m c
  | lds idx => exact Laws.EncodedRow.lds idx
  | ldi idx => exact Laws.EncodedRow.ldi idx
  | clrf => exact Laws.EncodedRow.clrf

/-- The encoder puts every operand where the decoder reads it (R61, R71): bit by bit, each operand by itself. -/
theorem withFieldsOf_encode (i : Instr) : i.withFieldsOf (encode i) = i := by
  cases i <;>
    simp only [Instr.withFieldsOf, encode, shiftField, modulusField, hiField, loField, rowRotl, rowGfmul,
      rowGfinv, rowAffine, rowSboxgen, rowLds, rowLdi, Instr.rotl.injEq, Instr.gfmul.injEq, Instr.gfinv.injEq,
      Instr.affine.injEq, Instr.sboxgen.injEq, Instr.lds.injEq, Instr.ldi.injEq]
  all_goals repeat' apply And.intro
  all_goals
    ext k hk
    interval_cases k <;> simp

/-- Decoding an encoded command gives it back (R71). -/
@[simp] theorem decode_encode (i : Instr) : decode (encode i) = .command i :=
  decode_eq_command.mpr ⟨row_holds_encode i, withFieldsOf_encode i⟩

/-- The words of SBOXGEN's row (R64). -/
theorem exists_decode_sboxgen {w : Word} :
    (∃ m c, decode w = .command (.sboxgen m c)) ↔ w &&& 0xFE0000FF = 0x50000000 := by
  constructor
  · rintro ⟨m, c, h⟩
    exact OpcodeRow.holds_iff.mp (row_holds_of_decode h).1
  · intro h
    exact ⟨_, _, decode_of_row_holds (i := .sboxgen 0 0) (OpcodeRow.holds_iff.mpr h)⟩

/-- CLRF has one word (spec/44_system_commands.md R141). -/
theorem eq_of_decode_clrf {w : Word} (h : decode w = .command .clrf) : w = 0x80000000 := by
  have hrow := OpcodeRow.holds_iff.mp (row_holds_of_decode h).1
  rwa [Instr.row, rowClrf, show (0xFFFFFFFF : Word) = BitVec.allOnes 32 from rfl, BitVec.and_allOnes] at hrow

end Sys2Proof
end

section
/-! The step at each kind of edge (spec/10_state.md R38, R39), and the state right after reset (R37). -/

namespace Sys2Proof.Machine

/-- Settles O1: the edge brings the word, and the word decodes to the command. -/
theorem stepRunsAcceptedCommand : Obligations.StepRunsAcceptedCommand := by
  intro s p rest i hin hrst hvalid hdec
  have hevent : portEvent p = .accept p.cmdWord := by simp [portEvent, cmdReady, hrst, hvalid]
  simp [step, State.takeEvent_cons hin, hevent, hdec]

/-- Settles O3: with nothing listed, and at an edge that presents nothing, the event is the idle one. -/
theorem idleEdgeKeepsState : Obligations.IdleEdgeKeepsState := by
  intro s
  constructor
  · intro hin
    simp [step, State.takeEvent_nil hin]
  · intro p rest hin hrst hvalid
    have hevent : portEvent p = .idle := by simp [portEvent, hrst, hvalid]
    simp [step, State.takeEvent_cons hin, hevent]

/-- Settles O5: every register of the reset state, and each port, is the constant of R37. -/
theorem resetRegistersAreZero : Obligations.ResetRegistersAreZero := by
  refine ⟨rfl, rfl, rfl, rfl, fun f => ?_, rfl⟩
  cases f <;> rfl

/-- Settles O48: both memories are empty, and `TV` is 0. -/
theorem invariantHoldsAtReset : Obligations.InvariantHoldsAtReset := by
  obtain ⟨hsbox, hisbox⟩ := State.reset_tables_wf
  exact ⟨hsbox, hisbox, fun htv => absurd htv (by decide)⟩

@[simp] theorem tableWord_toNat (w : Word) : tableWord 32 w.toNat = w :=
  by
  rw [tableWord, Nat.mod_eq_of_lt w.isLt, BitVec.ofNat_toNat, BitVec.setWidth_eq]

/-- Settles O6: the word presented is the encoding, which decodes to the command, so that O1 says what the step is. -/
theorem presentedEncodingRunsItsCommand : Obligations.PresentedEncodingRunsItsCommand := by
  intro i s
  have hin : (s.withFetchWord 32 (encode i).toNat).inputs = present (encode i) :: s.inputs := by simp
  exact stepRunsAcceptedCommand _ _ _ i hin rfl rfl (decode_encode i)

end Sys2Proof.Machine
end

section
/-! Loops of writes into one table memory: what a cell holds afterwards is the last value written there. -/

namespace Sys2Proof.Machine

/-- The memory after `MemWrite(T, idx k, 1, val k)` for each `k` of a list, in order. -/
def Memory.writeAll (idx val : Byte → Byte) (l : List Byte) (t : Memory) : Memory :=
  l.foldl (fun t k => t.write (tableIndex (idx k)) (val k)) t

@[simp] theorem Memory.writeAll_nil (idx val : Byte → Byte) (t : Memory) : t.writeAll idx val [] = t := rfl

theorem Memory.writeAll_concat (idx val : Byte → Byte) (l : List Byte) (k : Byte) (t : Memory) :
    t.writeAll idx val (l ++ [k]) = (t.writeAll idx val l).write (tableIndex (idx k)) (val k) := by
  simp [Memory.writeAll]

theorem Memory.wf_nil : Memory.wf [] = true := rfl

theorem Memory.wf_writeAll {idx val : Byte → Byte} (l : List Byte) {t : Memory} (h : t.wf = true) :
    (t.writeAll idx val l).wf = true :=
  foldl_invariant (P := fun u : Memory => u.wf = true) (fun _ _ hu => Memory.wf_write _ (tableIndex_lt _) hu) l h

/-- The last write to a cell counts; without one the cell is as it was. -/
theorem Memory.read_writeAll (idx val : Byte → Byte) (l : List Byte) (t : Memory) (v : Byte) :
    (t.writeAll idx val l).read (tableIndex v) =
      ((l.reverse.find? (idx · == v)).map val).or (t.read (tableIndex v)) := by
  induction l using List.reverseRecOn with
  | nil => simp
  | append_singleton l k ih =>
    rw [Memory.writeAll_concat, Memory.read_write, List.reverse_concat, List.find?_cons]
    by_cases h : idx k = v
    · simp [h]
    · have hv : tableIndex v ≠ tableIndex (idx k) := fun heq => h (tableIndex_inj.mp heq).symm
      simp [beq_false_of_ne h, hv, ih]

/-- Nothing is listed past the end of a canonical memory. -/
theorem Memory.read_eq_none_of_tableSize_le {t : Memory} (h : t.wf = true) {a : Nat} (ha : Config.tableSize ≤ a) :
    t.read a = none := by
  unfold Memory.wf at h
  generalize 0 = lo at h
  induction t generalizing lo with
  | nil => rfl
  | cons cell rest ih =>
    obtain ⟨b, w⟩ := cell
    obtain ⟨-, hb, hrest⟩ := Memory.risingFrom_cons.mp h
    have hne : a ≠ b := by simp only at hb; omega
    simpa [Memory.read, hne] using ih _ hrest

/-- Two canonical memories that agree at every index of the table are equal data. -/
theorem Memory.ext_tableIndex {t u : Memory} (ht : t.wf = true) (hu : u.wf = true)
    (h : ∀ k : Byte, t.read (tableIndex k) = u.read (tableIndex k)) : t = u := by
  refine Memory.ext_read ht hu fun a => ?_
  by_cases ha : a < Config.tableSize
  · simpa [tableIndex, Nat.mod_eq_of_lt ha] using h (BitVec.ofNat 8 a)
  · rw [Memory.read_eq_none_of_tableSize_le ht (by omega), Memory.read_eq_none_of_tableSize_le hu (by omega)]

/-- A cell that one of the writes alone goes to holds that write's value. -/
theorem Memory.read_writeAll_of_unique {idx : Byte → Byte} (val : Byte → Byte) {l : List Byte} (t : Memory) {k : Byte}
    (hk : k ∈ l) (huniq : ∀ j, idx j = idx k → j = k) :
    (t.writeAll idx val l).read (tableIndex (idx k)) = some (val k) := by
  have hfind : l.reverse.find? (idx · == idx k) = some k := by
    cases h : l.reverse.find? (idx · == idx k) with
    | none =>
      have hnone := List.find?_eq_none.mp h k (List.mem_reverse.mpr hk)
      simp at hnone
    | some j => rw [huniq j (by simpa using List.find?_some h)]
  simp [Memory.read_writeAll, hfind]

/-- A loop over the table that writes each cell fills it. -/
@[simp] theorem Memory.read_writeAll_id (val : Byte → Byte) (t : Memory) (k : Byte) :
    (t.writeAll id val allBytes).read (tableIndex k) = some (val k) :=
  Memory.read_writeAll_of_unique val t (idx := id) (mem_allBytes k) fun _ h => h

/-- Filling a canonical memory gives a memory that does not depend on what was there. -/
theorem Memory.writeAll_id_eq {val : Byte → Byte} {t u : Memory} (ht : t.wf = true) (hu : u.wf = true) :
    t.writeAll id val allBytes = u.writeAll id val allBytes :=
  Memory.ext_tableIndex (Memory.wf_writeAll _ ht) (Memory.wf_writeAll _ hu) fun k => by simp

theorem zeroFill_eq_writeAll (t : Memory) : zeroFill t = t.writeAll id (fun _ => 0x00) allBytes := rfl

end Sys2Proof.Machine
end

section
/-! The generator's tables in closed form (spec/43_sbox_generator.md R118, R119), and SBOXGEN's loops in the same form
(R120), so that later proofs about either do not look into a loop. -/

namespace Sys2Proof.Machine

/-- The S-box entry at an index (R119). -/
def sboxEntry (m : Modulus) (c i : Byte) : Byte := affine (gfinv i m) c

/-- The generator's branch for an inverse of 0 gives the affine transform too, as `lin` maps 0 to 0 (R115, R118). -/
theorem genIteration_eq (m : Modulus) (c : Byte) (t : TablePair) (i : Byte) :
    genIteration m c t i =
      ⟨t.sbox.write (tableIndex i) (sboxEntry m c i), t.isbox.write (tableIndex (sboxEntry m c i)) i⟩ := by
  have hv : (if gfinv i m = 0 then c else lin (gfinv i m) ^^^ c) = sboxEntry m c i := by
    split
    · next hzero =>
      have hlin : lin 0#8 = 0#8 := by decide
      simp [sboxEntry, affine, hzero, hlin]
    · rfl
  simp only [genIteration, hv]

theorem foldl_genIteration (m : Modulus) (c : Byte) (l : List Byte) (t : TablePair) :
    l.foldl (genIteration m c) t =
      ⟨t.sbox.writeAll id (sboxEntry m c) l, t.isbox.writeAll (sboxEntry m c) id l⟩ := by
  induction l using List.reverseRecOn with
  | nil => rfl
  | append_singleton l i ih =>
    rw [List.foldl_concat, ih, genIteration_eq, Memory.writeAll_concat, Memory.writeAll_concat]
    rfl

theorem gen_sbox (m : Modulus) (c : Byte) : (gen m c).sbox = Memory.writeAll id (sboxEntry m c) allBytes [] := by
  rw [gen, foldl_genIteration]

theorem gen_isbox (m : Modulus) (c : Byte) :
    (gen m c).isbox = (zeroFill []).writeAll (sboxEntry m c) id allBytes := by
  rw [gen, foldl_genIteration]

/-- Every cell of both tables of the generator holds a value. -/
theorem exists_entry_gen (m : Modulus) (c : Byte) (tab : Table) (k : Byte) : ∃ v, (gen m c).entry tab k = some v := by
  cases tab with
  | sbox => exact ⟨sboxEntry m c k, by simp [TablePair.entry, gen_sbox]⟩
  | isbox =>
    simp only [TablePair.entry, gen_isbox, Memory.read_writeAll (sboxEntry m c), zeroFill_eq_writeAll,
      Memory.read_writeAll_id]
    cases allBytes.reverse.find? (sboxEntry m c · == k) <;> simp

/-! ### The command's loops -/

/-- Two states with the same registers, flags, tables and input are the same state. -/
theorem State.eq_of_fields {s t : State} (hr : s.r = t.r) (hflag : ∀ f, s.flag f = t.flag f) (hgmod : s.gmod = t.gmod)
    (hgconst : s.gconst = t.gconst) (hsbox : s.sbox = t.sbox) (hisbox : s.isbox = t.isbox)
    (hinputs : s.inputs = t.inputs) : s = t := by
  have hstatus : s.status = t.status := status_eq_of_flags hflag
  cases s
  cases t
  simp_all only

/-- A state with both tables replaced. -/
def State.withTables (s : State) (x y : Memory) : State := { s with sbox := x, isbox := y }

@[simp] theorem State.withTables_r_eq (s : State) (x y : Memory) : (s.withTables x y).r = s.r := rfl
@[simp] theorem State.withTables_status_eq (s : State) (x y : Memory) : (s.withTables x y).status = s.status := rfl
@[simp] theorem State.withTables_gmod_eq (s : State) (x y : Memory) : (s.withTables x y).gmod = s.gmod := rfl
@[simp] theorem State.withTables_gconst_eq (s : State) (x y : Memory) : (s.withTables x y).gconst = s.gconst := rfl
@[simp] theorem State.withTables_sbox_eq (s : State) (x y : Memory) : (s.withTables x y).sbox = x := rfl
@[simp] theorem State.withTables_isbox_eq (s : State) (x y : Memory) : (s.withTables x y).isbox = y := rfl
@[simp] theorem State.withTables_inputs_eq (s : State) (x y : Memory) : (s.withTables x y).inputs = s.inputs := rfl
@[simp] theorem State.flag_withTables (s : State) (x y : Memory) (f : Flag) : (s.withTables x y).flag f = s.flag f := rfl

@[simp] theorem State.withTables_withTables (s : State) (x y x' y' : Memory) :
    (s.withTables x y).withTables x' y' = s.withTables x' y' := rfl

theorem State.warnIf_withTables (s : State) (x y : Memory) (b : Bool) (f : Flag) :
    (s.withTables x y).warnIf b f = (s.warnIf b f).withTables x y := by
  cases b <;> rfl

theorem foldl_memWrite_isbox (val : Byte → Byte) (l : List Byte) (s : State) :
    l.foldl (fun s k => s.memWrite .isbox k (val k)) s = s.withTables s.sbox (s.isbox.writeAll id val l) := by
  induction l using List.reverseRecOn with
  | nil => rfl
  | append_singleton l k ih =>
    rw [List.foldl_concat, ih, Memory.writeAll_concat]
    rfl

/-- SBOXGEN's first loop zero-fills `ISBOX` and touches nothing else (R120). -/
theorem sboxgenStart_eq (s : State) : sboxgenStart s = ⟨s.withTables s.sbox (zeroFill s.isbox), 0⟩ := by
  rw [sboxgenStart, foldl_memWrite_isbox fun _ => 0x00, zeroFill_eq_writeAll]

/-- The warnings that SBOXGEN's second loop sets on its way over a list of indexes: `NOINV` for a nonzero index without
an inverse, `COLL` for an entry met before (R120, R155, R156). -/
def State.warnOver (m : Modulus) (c : Byte) (l : List Byte) (s : State) : State :=
  (s.warnIf (l.any (lacksInverse · m)) .noinv).warnIf (!decide (l.map (sboxEntry m c)).Nodup) .coll

theorem sboxgenIteration_eq (m : Modulus) (c : Byte) (w : GenWork) (i : Byte) :
    sboxgenIteration m c w i =
      ⟨(((w.machine.warnIf (lacksInverse i m) .noinv).memWrite .sbox i (sboxEntry m c i)).warnIf
          (w.written.getLsbD (tableIndex (sboxEntry m c i))) .coll).memWrite .isbox (sboxEntry m c i) i,
        w.written ||| BitVec.twoPow Config.tableSize (tableIndex (sboxEntry m c i))⟩ := rfl

/-- The hidden map marks exactly the entries met so far (spec/10_state.md R35). -/
theorem written_foldl_sboxgenIteration (m : Modulus) (c : Byte) (l : List Byte) (s : State) (v : Byte) :
    (l.foldl (sboxgenIteration m c) ⟨s, 0⟩).written.getLsbD (tableIndex v) = decide (v ∈ l.map (sboxEntry m c)) := by
  induction l using List.reverseRecOn with
  | nil => simp
  | append_singleton l i ih =>
    rw [List.foldl_concat, sboxgenIteration_eq, BitVec.getLsbD_or, ih, BitVec.getLsbD_twoPow]
    simp [tableIndex_lt, tableIndex_inj, eq_comm (a := v)]

theorem nodup_concat_eq (l : List Byte) (v : Byte) :
    (!decide (l ++ [v]).Nodup) = (!decide l.Nodup || decide (v ∈ l)) := by
  have hnodup : (l ++ [v]).Nodup ↔ v ∉ l ∧ l.Nodup := by rw [← List.concat_eq_append, List.nodup_concat]
  by_cases hv : v ∈ l <;> simp [hnodup, hv]

theorem State.flag_warnOver (m : Modulus) (c : Byte) (l : List Byte) (s : State) (f : Flag) :
    (s.warnOver m c l).flag f =
      (s.flag f || (l.any (lacksInverse · m) && .noinv == f) ||
        (!decide (l.map (sboxEntry m c)).Nodup && .coll == f)) := by
  simp only [State.warnOver, State.flag_warnIf]

/-- One more index adds its own two warnings. -/
theorem State.flag_warnOver_concat (m : Modulus) (c : Byte) (l : List Byte) (i : Byte) (s : State) (f : Flag) :
    (s.warnOver m c (l ++ [i])).flag f =
      ((s.warnOver m c l).flag f || (lacksInverse i m && .noinv == f) ||
        (decide (sboxEntry m c i ∈ l.map (sboxEntry m c)) && .coll == f)) := by
  simp only [State.flag_warnOver, List.map_append, List.map_singleton, nodup_concat_eq, List.any_append,
    List.any_cons, List.any_nil, Bool.or_false, Bool.and_or_distrib_right]
  ac_rfl

@[simp] theorem State.warnOver_r_eq (m : Modulus) (c : Byte) (l : List Byte) (s : State) :
    (s.warnOver m c l).r = s.r := by simp [State.warnOver]
@[simp] theorem State.warnOver_gmod_eq (m : Modulus) (c : Byte) (l : List Byte) (s : State) :
    (s.warnOver m c l).gmod = s.gmod := by simp [State.warnOver]
@[simp] theorem State.warnOver_gconst_eq (m : Modulus) (c : Byte) (l : List Byte) (s : State) :
    (s.warnOver m c l).gconst = s.gconst := by simp [State.warnOver]
@[simp] theorem State.warnOver_inputs_eq (m : Modulus) (c : Byte) (l : List Byte) (s : State) :
    (s.warnOver m c l).inputs = s.inputs := by simp [State.warnOver]

theorem State.warnOver_withTables (m : Modulus) (c : Byte) (l : List Byte) (s : State) (x y : Memory) :
    (s.withTables x y).warnOver m c l = (s.warnOver m c l).withTables x y := by
  simp only [State.warnOver, State.warnIf_withTables]

/-- SBOXGEN's second loop over a list of indexes, in closed form. -/
theorem machine_foldl_sboxgenIteration (m : Modulus) (c : Byte) (l : List Byte) (s : State) :
    (l.foldl (sboxgenIteration m c) ⟨s, 0⟩).machine =
      (s.warnOver m c l).withTables (s.sbox.writeAll id (sboxEntry m c) l) (s.isbox.writeAll (sboxEntry m c) id l) := by
  induction l using List.reverseRecOn with
  | nil => rfl
  | append_singleton l i ih =>
    have hwritten := written_foldl_sboxgenIteration m c l s (sboxEntry m c i)
    rw [List.foldl_concat, sboxgenIteration_eq, ih, hwritten]
    apply State.eq_of_fields
    case hflag =>
      intro f
      simp only [State.flag_withTables, State.flag_memWrite, State.flag_warnIf, State.flag_warnOver_concat]
    all_goals simp [Memory.writeAll_concat]

/-- The machine after SBOXGEN's two loops, in closed form. -/
theorem sboxgenLoop_eq (m : Modulus) (c : Byte) (s : State) :
    sboxgenLoop m c s =
      (s.warnOver m c allBytes).withTables (s.sbox.writeAll id (sboxEntry m c) allBytes)
        ((zeroFill s.isbox).writeAll (sboxEntry m c) id allBytes) := by
  rw [sboxgenLoop, sboxgenStart_eq, machine_foldl_sboxgenIteration, State.warnOver_withTables]
  simp

@[simp] theorem sboxgenLoop_r (m : Modulus) (c : Byte) (s : State) : (sboxgenLoop m c s).r = s.r := by
  simp [sboxgenLoop_eq]

theorem sboxgenLoop_sbox (m : Modulus) (c : Byte) (s : State) :
    (sboxgenLoop m c s).sbox = s.sbox.writeAll id (sboxEntry m c) allBytes := by
  simp [sboxgenLoop_eq]

theorem sboxgenLoop_isbox (m : Modulus) (c : Byte) (s : State) :
    (sboxgenLoop m c s).isbox = (zeroFill s.isbox).writeAll (sboxEntry m c) id allBytes := by
  simp [sboxgenLoop_eq]

theorem flag_sboxgenLoop (m : Modulus) (c : Byte) (s : State) (f : Flag) :
    (sboxgenLoop m c s).flag f =
      (s.flag f || (allBytes.any (lacksInverse · m) && .noinv == f) ||
        (!decide (allBytes.map (sboxEntry m c)).Nodup && .coll == f)) := by
  simp only [sboxgenLoop_eq, State.flag_withTables, State.flag_warnOver]

/-- Over memories in canonical form the loops leave exactly the tables of `gen` (R118, R120). -/
theorem sboxgenLoop_tables_eq_gen (m : Modulus) (c : Byte) {s : State} (hsbox : s.sbox.wf = true)
    (hisbox : s.isbox.wf = true) :
    (sboxgenLoop m c s).sbox = (gen m c).sbox ∧ (sboxgenLoop m c s).isbox = (gen m c).isbox := by
  constructor
  · rw [sboxgenLoop_sbox, gen_sbox, Memory.writeAll_id_eq hsbox Memory.wf_nil]
  · rw [sboxgenLoop_isbox, gen_isbox, zeroFill_eq_writeAll, zeroFill_eq_writeAll,
      Memory.writeAll_id_eq hisbox Memory.wf_nil]

end Sys2Proof.Machine
end

section
/-! What SBOXGEN leaves in the tables and in `COLL`, and what the invariant says of valid tables. -/

namespace Sys2Proof.Machine

@[simp] theorem State.memRead_setFlag (s : State) (f : Flag) (tab : Table) (k : Byte) :
    (s.setFlag f).memRead tab k = s.memRead tab k := by cases tab <;> rfl

@[simp] theorem State.memRead_recordParams (s : State) (m : Modulus) (c : Byte) (tab : Table) (k : Byte) :
    (s.recordParams m c).memRead tab k = s.memRead tab k := by cases tab <;> rfl

theorem memRead_sbox_sboxgenLoop (m : Modulus) (c : Byte) (s : State) (k : Byte) :
    (sboxgenLoop m c s).memRead .sbox k = some (sboxEntry m c k) := by
  simp [State.memRead, sboxgenLoop_sbox]

/-- Where no entry occurs twice, each index is found at its entry. -/
theorem memRead_isbox_sboxgenLoop {m : Modulus} {c : Byte} (hinj : Function.Injective (sboxEntry m c)) (s : State)
    (k : Byte) : (sboxgenLoop m c s).memRead .isbox (sboxEntry m c k) = some k := by
  rw [State.memRead, State.table_isbox, sboxgenLoop_isbox]
  exact Memory.read_writeAll_of_unique id _ (mem_allBytes k) fun _ h => hinj h

theorem nodup_map_allBytes {g : Byte → Byte} : (allBytes.map g).Nodup ↔ Function.Injective g := by
  have hnodup : allBytes.Nodup := pairwise_allBytes.imp fun hlt heq => absurd (congrArg BitVec.toNat heq) hlt.ne
  rw [List.nodup_map_iff_inj_on hnodup]
  simp [Function.Injective]

/-- Started at 0, `COLL` stays 0 exactly when no entry occurs twice (R29). -/
theorem coll_sboxgenLoop_eq_false {m : Modulus} {c : Byte} {s : State} (hs : s.flag .coll = false) :
    (sboxgenLoop m c s).flag .coll = false ↔ Function.Injective (sboxEntry m c) := by
  rw [flag_sboxgenLoop, hs, ← nodup_map_allBytes]
  simp

/-- Settles O36: `COLL` says whether an entry occurs twice. If none does, each entry's cell keeps its index; if
`i` and `j` share an entry, that one cell cannot hold both. -/
theorem collisionFlagDecidesRoundTrip : Obligations.CollisionFlagDecidesRoundTrip := by
  intro m c s hcoll
  refine ⟨_, exec_sboxgen_next.mpr rfl, ?_⟩
  have hflag : (((sboxgenLoop m c s).recordParams m c).setFlag .tv).flag .coll = (sboxgenLoop m c s).flag .coll := by
    simp [State.flag_setFlag]
  simp only [hflag, coll_sboxgenLoop_eq_false hcoll, State.memRead_setFlag, State.memRead_recordParams,
    memRead_sbox_sboxgenLoop, Option.some.injEq, exists_eq_left']
  constructor
  · intro hinj i
    exact memRead_isbox_sboxgenLoop hinj s i
  · intro hround i j heq
    have hi := hround i
    rw [heq, hround j] at hi
    exact (Option.some.inj hi).symm

/-- Settles O38: the tables are those of `gen`, whose every cell holds a value. -/
theorem validTablesHoldEveryCell : Obligations.ValidTablesHoldEveryCell := by
  rintro s ⟨-, -, hrecorded⟩ htv tab k
  obtain ⟨hsbox, hisbox⟩ := hrecorded htv
  obtain ⟨v, hv⟩ := exists_entry_gen s.gmod s.gconst tab k
  refine ⟨v, ?_⟩
  cases tab with
  | sbox => rwa [State.memRead, State.table_sbox, hsbox]
  | isbox => rwa [State.memRead, State.table_isbox, hisbox]

end Sys2Proof.Machine
end

section
/-! The frame of the commands, and which flags each can change (spec/10_state.md R24, R25). -/

namespace Sys2Proof.Machine

/-- A command other than SBOXGEN and CLRF writes `R` at most, and raises at most one flag, which its own rule names. -/
theorem exec_next_effect {i : Instr} {s t : State} (h : exec i s = .next t) (hclrf : i ≠ .clrf)
    (hgen : ∀ m c, i ≠ .sboxgen m c) :
    ∃ v, t = s.writeR v ∨ ∃ f ∈ raisableFlags i, t = (s.setFlag f).writeR v := by
  cases i with
  | nop => exact ⟨s.r, .inl (exec_nop_next.mp h)⟩
  | rotl sh x =>
    obtain ⟨n, -, ht⟩ | ⟨-, ht⟩ := exec_rotl_next.mp h
    · exact ⟨_, .inl ht⟩
    · exact ⟨s.r, .inr ⟨.rng, by simp [raisableFlags], ht⟩⟩
  | gfmul m a b => exact ⟨_, .inl (exec_gfmul_next.mp h)⟩
  | gfinv m x =>
    have ht := exec_gfinv_next.mp h
    cases hlacks : lacksInverse x m with
    | false => exact ⟨_, .inl (by rw [ht, hlacks, State.warnIf_false])⟩
    | true => exact ⟨_, .inr ⟨.noinv, by simp [raisableFlags], by rw [ht, hlacks, State.warnIf_true]⟩⟩
  | affine c x => exact ⟨_, .inl (exec_affine_next.mp h)⟩
  | sboxgen m c => exact absurd rfl (hgen m c)
  | lds idx =>
    obtain ⟨-, v, -, ht⟩ | ⟨-, ht⟩ := exec_lds_next.mp h
    · exact ⟨v, .inl ht⟩
    · exact ⟨s.r, .inr ⟨.nv, by simp [raisableFlags], ht⟩⟩
  | ldi idx =>
    obtain ⟨-, v, -, ht⟩ | ⟨-, ht⟩ := exec_ldi_next.mp h
    · exact ⟨v, .inl ht⟩
    · exact ⟨s.r, .inr ⟨.nv, by simp [raisableFlags], ht⟩⟩
  | clrf => exact absurd rfl hclrf

theorem tv_not_mem_raisableFlags (i : Instr) : Flag.tv ∉ raisableFlags i := by
  cases i <;> simp [raisableFlags]

/-- A command touches no flag that it neither clears nor raises. -/
theorem exec_flag_eq {i : Instr} {s t : State} {f : Flag} (h : exec i s = .next t) (hgen : ∀ m c, i ≠ .sboxgen m c)
    (hclrf : i ≠ .clrf) (hf : f ∉ raisableFlags i) : t.flag f = s.flag f := by
  obtain ⟨v, rfl | ⟨g, hg, rfl⟩⟩ := exec_next_effect h hclrf hgen
  · simp
  · have hne : g ≠ f := fun heq => hf (heq ▸ hg)
    simp [State.flag_setFlag, hne]

/-- Every command but SBOXGEN keeps the records and both tables. -/
theorem exec_tables_eq {i : Instr} {s t : State} (h : exec i s = .next t) (hgen : ∀ m c, i ≠ .sboxgen m c) :
    t.gmod = s.gmod ∧ t.gconst = s.gconst ∧ t.sbox = s.sbox ∧ t.isbox = s.isbox := by
  by_cases hclrf : i = .clrf
  · subst hclrf
    simp [exec_clrf_next.mp h]
  · obtain ⟨v, rfl | ⟨f, -, rfl⟩⟩ := exec_next_effect h hclrf hgen <;> simp

/-- Every command but SBOXGEN keeps `TV`. -/
theorem exec_tv_eq {i : Instr} {s t : State} (h : exec i s = .next t) (hgen : ∀ m c, i ≠ .sboxgen m c) :
    t.flag .tv = s.flag .tv := by
  by_cases hclrf : i = .clrf
  · subst hclrf
    simp [exec_clrf_next.mp h, State.flag_clearErrors]
  · exact exec_flag_eq h hgen hclrf (tv_not_mem_raisableFlags i)

theorem exec_sboxgen_tv {m : Modulus} {c : Byte} {s t : State} (h : exec (.sboxgen m c) s = .next t) :
    t.flag .tv = true := by
  rw [exec_sboxgen_next.mp h, State.flag_setFlag_same]

/-- Every command but CLRF keeps a flag that is 1. -/
theorem exec_keeps_set_flag {i : Instr} {s t : State} {f : Flag} (h : exec i s = .next t) (hclrf : i ≠ .clrf)
    (hf : s.flag f = true) : t.flag f = true := by
  by_cases hgen : ∃ m c, i = .sboxgen m c
  · obtain ⟨m, c, rfl⟩ := hgen
    simp [exec_sboxgen_next.mp h, State.flag_setFlag, flag_sboxgenLoop, hf]
  · push Not at hgen
    obtain ⟨v, rfl | ⟨g, -, rfl⟩⟩ := exec_next_effect h hclrf hgen <;> simp [State.flag_setFlag, hf]

/-- Settles O45: the frame of the commands, and that NOP, CLRF and SBOXGEN have no write of `R`. -/
theorem onlySboxgenWritesTables : Obligations.OnlySboxgenWritesTables := by
  constructor
  · intro i s t h hgen
    obtain ⟨hgmod, hgconst, hsbox, hisbox⟩ := exec_tables_eq h hgen
    refine ⟨hgmod, hgconst, exec_inputs h, fun tab k => ?_, hsbox, hisbox, exec_tv_eq h hgen,
      fun hclrf f hf => exec_flag_eq h hgen hclrf hf⟩
    cases tab <;> simp [State.memRead, hsbox, hisbox]
  · rintro i s t h (rfl | rfl | ⟨m, c, rfl⟩)
    · rw [exec_nop_next.mp h]
    · simp [exec_clrf_next.mp h]
    · simp [exec_sboxgen_next.mp h]

/-! ### The edge that a step takes -/

/-- Taking an edge changes the input alone. -/
theorem State.takeEvent_snd (s : State) : s.takeEvent.2 = { s with inputs := s.inputs.tail } := by
  cases h : s.inputs with
  | nil => rw [State.takeEvent_nil h, List.tail_nil, ← h]
  | cons p rest => rw [State.takeEvent_cons h, List.tail_cons]

@[simp] theorem State.flag_takeEvent_snd (s : State) (f : Flag) : s.takeEvent.2.flag f = s.flag f := by
  rw [State.takeEvent_snd]
  rfl

/-- An edge with an event was listed, and is of the event's kind. -/
theorem State.takeEvent_fst_ne_idle {s : State} (h : s.takeEvent.1 ≠ .idle) :
    ∃ p rest, s.inputs = p :: rest ∧ portEvent p = s.takeEvent.1 := by
  cases hin : s.inputs with
  | nil => simp [State.takeEvent_nil hin] at h
  | cons p rest => exact ⟨p, rest, rfl, by simp [State.takeEvent_cons hin]⟩

theorem portEvent_eq_reset {p : PortSample} : portEvent p = .reset ↔ p.rst = true := by
  obtain ⟨hrst, he⟩ | ⟨hrst, -, he⟩ | ⟨hrst, -, he⟩ := portEvent_cases p <;> simp [hrst, he]

theorem portEvent_eq_accept {p : PortSample} {w : Word} :
    portEvent p = .accept w ↔ p.rst = false ∧ p.cmdValid = true ∧ p.cmdWord = w := by
  obtain ⟨hrst, he⟩ | ⟨hrst, hvalid, he⟩ | ⟨hrst, hvalid, he⟩ := portEvent_cases p <;> simp [*]

/-- Settles O42: CLRF apart, commands only raise flags; and of a step's four kinds only a reset edge and CLRF's one word
clear any. -/
theorem flagsAreSticky : Obligations.FlagsAreSticky := by
  refine ⟨fun i s t f h hclrf hf => exec_keeps_set_flag h hclrf hf, fun s t h htv => ?_, fun s t f h hf hf' => ?_⟩
  · rw [exec_tv_eq h (by simp), htv]
  · obtain ⟨-, rfl⟩ | ⟨hevent, -⟩ | ⟨w, i, hevent, hdec, hexec⟩ | ⟨w, why, -, -, rfl⟩ := step_next.mp h
    · simp [hf] at hf'
    · obtain ⟨p, rest, hin, hp⟩ := State.takeEvent_fst_ne_idle (s := s) (by simp [hevent])
      exact ⟨p, rest, hin, .inl (portEvent_eq_reset.mp (hp.trans hevent))⟩
    · obtain ⟨p, rest, hin, hp⟩ := State.takeEvent_fst_ne_idle (s := s) (by simp [hevent])
      obtain ⟨-, hvalid, rfl⟩ := portEvent_eq_accept.mp (hp.trans hevent)
      have hi : i = .clrf := by
        by_contra hclrf
        have hkept := exec_keeps_set_flag hexec hclrf ((s.flag_takeEvent_snd f).trans hf)
        simp [hf'] at hkept
      subst hi
      have hne : f ≠ .tv := by
        rintro rfl
        have hkept := exec_tv_eq hexec (by simp)
        simp [hf, hf'] at hkept
      exact ⟨p, rest, hin, .inr ⟨hne, hvalid, eq_of_decode_clrf hdec⟩⟩
    · simp [State.flag_setFlag, hf] at hf'

end Sys2Proof.Machine
end

section
/-! No command reads `R`, `GMOD` or `GCONST` (spec/10_state.md R21, R31, R32). -/

namespace Sys2Proof.Machine

/-- A state with `R`, `GMOD` and `GCONST` replaced. -/
def State.withRecords (s : State) (v : Byte) (g : Modulus) (c : Byte) : State :=
  { s with r := v, gmod := g, gconst := c }

@[simp] theorem State.withRecords_sbox_eq (s : State) (v : Byte) (g : Modulus) (c : Byte) :
    (s.withRecords v g c).sbox = s.sbox := rfl
@[simp] theorem State.withRecords_isbox_eq (s : State) (v : Byte) (g : Modulus) (c : Byte) :
    (s.withRecords v g c).isbox = s.isbox := rfl
theorem State.withTables_withRecords (s : State) (v : Byte) (g : Modulus) (c : Byte) (x y : Memory) :
    (s.withRecords v g c).withTables x y = (s.withTables x y).withRecords v g c := rfl

/-- The next states `t` of `s` and `t'` of `s.withRecords v g c` agree, but for what the command left alone of the three
registers. -/
def AgreeButRecords (s : State) (v : Byte) (g : Modulus) (c : Byte) (t t' : State) : Prop :=
  t'.status = t.status ∧ t'.sbox = t.sbox ∧ t'.isbox = t.isbox ∧ t'.inputs = t.inputs ∧
  (t'.r = t.r ∨ (t.r = s.r ∧ t'.r = v)) ∧
  (t'.gmod = t.gmod ∧ t'.gconst = t.gconst ∨ (t.gmod = s.gmod ∧ t.gconst = s.gconst ∧ t'.gmod = g ∧ t'.gconst = c))

section
variable {s u : State} {v : Byte} {g : Modulus} {c : Byte}

/-- Where a command leaves all three registers alone, both runs differ in them as before. -/
theorem agree_withRecords (hr : u.r = s.r) (hgmod : u.gmod = s.gmod) (hgconst : u.gconst = s.gconst) :
    AgreeButRecords s v g c u (u.withRecords v g c) :=
  ⟨rfl, rfl, rfl, rfl, .inr ⟨hr, rfl⟩, .inr ⟨hgmod, hgconst, rfl, rfl⟩⟩

/-- Where a command writes `R` and leaves the records alone, both runs have the same `R`. -/
theorem agree_writeR (x : Byte) (hgmod : u.gmod = s.gmod) (hgconst : u.gconst = s.gconst) :
    AgreeButRecords s v g c (u.writeR x) ((u.withRecords v g c).writeR x) :=
  ⟨rfl, rfl, rfl, rfl, .inl rfl, .inr ⟨hgmod, hgconst, rfl, rfl⟩⟩

theorem State.warnIf_withRecords (b : Bool) (f : Flag) :
    (s.withRecords v g c).warnIf b f = (s.warnIf b f).withRecords v g c := by
  cases b <;> rfl

theorem sboxgenLoop_withRecords (m : Modulus) (k : Byte) :
    sboxgenLoop m k (s.withRecords v g c) = (sboxgenLoop m k s).withRecords v g c := by
  simp only [sboxgenLoop_eq, State.warnOver, State.warnIf_withRecords, State.withTables_withRecords,
    State.withRecords_sbox_eq, State.withRecords_isbox_eq]

theorem loadFrom_withRecords {tab : Table} {idx : Byte} {t : State} (h : loadFrom tab idx s = .next t) :
    ∃ t', loadFrom tab idx (s.withRecords v g c) = .next t' ∧ AgreeButRecords s v g c t t' := by
  obtain ⟨htv, x, hread, rfl⟩ | ⟨htv, rfl⟩ := loadFrom_next.mp h
  · have hread' : (s.withRecords v g c).memRead tab idx = some x := by rw [← hread]; cases tab <;> rfl
    exact ⟨_, loadFrom_next.mpr (.inl ⟨htv, x, hread', rfl⟩), agree_writeR x rfl rfl⟩
  · exact ⟨_, loadFrom_next.mpr (.inr ⟨htv, rfl⟩), agree_withRecords rfl rfl rfl⟩

end

/-- Settles O46: each command writes `R` with a value that none of the three enters, or leaves it; SBOXGEN alone writes
the records, with its operands. -/
theorem noCommandReadsResultOrRecords : Obligations.NoCommandReadsResultOrRecords := by
  intro i s t v c g h
  change ∃ t', exec i (s.withRecords v g c) = .next t' ∧ AgreeButRecords s v g c t t'
  cases i with
  | nop =>
    rw [exec_nop_next.mp h]
    exact ⟨_, exec_nop_next.mpr rfl, agree_withRecords rfl rfl rfl⟩
  | rotl sh x =>
    obtain ⟨n, hn, rfl⟩ | ⟨hn, rfl⟩ := exec_rotl_next.mp h
    · exact ⟨_, exec_rotl_next.mpr (.inl ⟨n, hn, rfl⟩), agree_writeR _ rfl rfl⟩
    · exact ⟨_, exec_rotl_next.mpr (.inr ⟨hn, rfl⟩), agree_withRecords rfl rfl rfl⟩
  | gfmul m a b =>
    rw [exec_gfmul_next.mp h]
    exact ⟨_, exec_gfmul_next.mpr rfl, agree_writeR _ rfl rfl⟩
  | gfinv m x =>
    rw [exec_gfinv_next.mp h]
    refine ⟨_, exec_gfinv_next.mpr rfl, ?_⟩
    rw [State.warnIf_withRecords]
    exact agree_writeR _ (State.warnIf_gmod_eq ..) (State.warnIf_gconst_eq ..)
  | affine k x =>
    rw [exec_affine_next.mp h]
    exact ⟨_, exec_affine_next.mpr rfl, agree_writeR _ rfl rfl⟩
  | sboxgen m k =>
    rw [exec_sboxgen_next.mp h]
    refine ⟨_, exec_sboxgen_next.mpr rfl, ?_⟩
    rw [sboxgenLoop_withRecords]
    exact ⟨rfl, rfl, rfl, rfl, .inr ⟨sboxgenLoop_r m k s, rfl⟩, .inl ⟨rfl, rfl⟩⟩
  | lds idx => exact loadFrom_withRecords h
  | ldi idx => exact loadFrom_withRecords h
  | clrf =>
    rw [exec_clrf_next.mp h]
    exact ⟨_, exec_clrf_next.mpr rfl, agree_withRecords rfl rfl rfl⟩

end Sys2Proof.Machine
end

section
/-! The invariant along a step (spec/10_state.md R25), and `TV` along a run. -/

namespace Sys2Proof.Machine

/-- The invariant speaks of the tables, the records and `TV` alone. -/
theorem CoreInv.of_eq {s t : State} (hs : CoreInv s) (hsbox : t.sbox = s.sbox) (hisbox : t.isbox = s.isbox)
    (hgmod : t.gmod = s.gmod) (hgconst : t.gconst = s.gconst) (htv : t.flag .tv = s.flag .tv) : CoreInv t := by
  unfold CoreInv TablesAsRecorded at *
  rwa [hsbox, hisbox, hgmod, hgconst, htv]

theorem coreInv_takeEvent_snd {s : State} (hs : CoreInv s) : CoreInv s.takeEvent.2 := by
  rw [State.takeEvent_snd]
  exact hs

theorem coreInv_applyReset (s : State) : CoreInv s.applyReset :=
  CoreInv.of_eq invariantHoldsAtReset rfl rfl rfl rfl rfl

/-- Every command keeps the invariant: SBOXGEN leaves `gen`'s tables for the operands that it records, and no other
touches what the invariant speaks of. -/
theorem exec_keeps_coreInv {i : Instr} {s t : State} (hs : CoreInv s) (h : exec i s = .next t) : CoreInv t := by
  by_cases hgen : ∃ m c, i = .sboxgen m c
  · obtain ⟨m, c, rfl⟩ := hgen
    rw [exec_sboxgen_next.mp h]
    obtain ⟨hsbox, hisbox, -⟩ := hs
    obtain ⟨hwf, hwf'⟩ := sboxgenLoop_wf m c ⟨hsbox, hisbox⟩
    exact ⟨hwf, hwf', fun _ => sboxgenLoop_tables_eq_gen m c hsbox hisbox⟩
  · push Not at hgen
    obtain ⟨hgmod, hgconst, hsbox, hisbox⟩ := exec_tables_eq h hgen
    exact hs.of_eq hsbox hisbox hgmod hgconst (exec_tv_eq h hgen)

/-- Settles O49: by the four kinds of a step. -/
theorem stepKeepsInvariant : Obligations.StepKeepsInvariant := by
  intro s t hs h
  have hs' := coreInv_takeEvent_snd hs
  obtain ⟨-, rfl⟩ | ⟨-, rfl⟩ | ⟨w, i, -, -, hexec⟩ | ⟨w, why, -, -, rfl⟩ := step_next.mp h
  · exact hs'
  · exact coreInv_applyReset _
  · exact exec_keeps_coreInv hs' hexec
  · exact hs'.of_eq rfl rfl rfl rfl (by simp [State.flag_setFlag])

/-- `TV` after a command is 1 exactly when it was or the command is SBOXGEN (R25). -/
theorem exec_tv_iff {i : Instr} {s t : State} (h : exec i s = .next t) :
    t.flag .tv = true ↔ s.flag .tv = true ∨ ∃ m c, i = .sboxgen m c := by
  by_cases hgen : ∃ m c, i = .sboxgen m c
  · have ht : t.flag .tv = true := by
      obtain ⟨m, c, rfl⟩ := hgen
      exact exec_sboxgen_tv h
    simp only [ht, hgen, or_true]
  · rw [exec_tv_eq h (by push Not at hgen; exact hgen)]
    simp only [hgen, or_false]

/-- One word presented sets `TV` exactly when it is a legal SBOXGEN, and never clears it. -/
theorem step_present_tv_iff {w : Word} {rest : List PortSample} {s t : State} (hin : s.inputs = present w :: rest)
    (h : step s = .next t) : t.flag .tv = true ↔ s.flag .tv = true ∨ w &&& 0xFE0000FF = 0x50000000 := by
  have hevent : s.takeEvent.1 = .accept w := by simp [State.takeEvent_cons hin]
  rw [← exists_decode_sboxgen]
  obtain ⟨he, -⟩ | ⟨he, -⟩ | ⟨w', i, he, hdec, hexec⟩ | ⟨w', why, he, hdec, rfl⟩ := step_next.mp h <;>
    simp only [hevent, reduceCtorEq, PortEvent.accept.injEq] at he <;> subst he
  · simp [exec_tv_iff hexec, hdec]
  · simp [State.flag_setFlag, hdec]

/-- A run of one more step is a step and the run from there. -/
theorem run_succ_next {k : Nat} {s t : State} :
    Host.Core.run core (k + 1) s = .next t ↔ ∃ u, step s = .next u ∧ Host.Core.run core k u = .next t := by
  have hcore : core.step s = step s := rfl
  cases h : step s <;> simp [Host.Core.run, hcore, h]

/-- Settles O51, by induction on the words: each step takes its word from the input and sets `TV` if the word is an
SBOXGEN. -/
theorem tablesValidExactlyAfterSboxgen : Obligations.TablesValidExactlyAfterSboxgen := by
  intro ws
  induction ws with
  | nil =>
    intro s t hin hrun
    cases hrun
    simp [hin]
  | cons w ws ih =>
    intro s t hin hrun
    obtain ⟨u, hstep, hrun⟩ := run_succ_next.mp hrun
    have hu : u.inputs = ws.map present := by rw [stepTakesOneEdge s u hstep, hin]; rfl
    obtain ⟨hend, htv⟩ := ih u t hu hrun
    refine ⟨hend, ?_⟩
    rw [htv, step_present_tv_iff hin hstep, or_assoc, List.exists_mem_cons_iff]

end Sys2Proof.Machine
end

section
/-! Which index the inverse table keeps (spec/20_memory.md R48), and that a load can be repeated (R44). -/

namespace Sys2Proof.Machine

/-- In a list ordered by `R`, the search stops at the hit that no other hit precedes. -/
theorem find?_eq_some_of_pairwise {α : Type} {R : α → α → Prop} {p : α → Bool} {l : List α} {i : α}
    (hl : l.Pairwise R) (hmem : i ∈ l) (hi : p i = true) (hfirst : ∀ j, p j = true → ¬ R j i) :
    l.find? p = some i := by
  induction hl with
  | nil => simp at hmem
  | @cons a rest hbefore _ ih =>
    obtain rfl | hrest := List.mem_cons.mp hmem
    · exact List.find?_cons_of_pos hi
    · have ha : ¬ p a = true := fun ha => hfirst a ha (hbefore i hrest)
      rw [List.find?_cons_of_neg ha, ih hrest]

/-- The last index of a table's loop that satisfies a predicate is the largest. -/
theorem find?_reverse_allBytes {p : Byte → Bool} {i : Byte} (hi : p i = true)
    (hmax : ∀ j, p j = true → j.toNat ≤ i.toNat) : allBytes.reverse.find? p = some i :=
  find?_eq_some_of_pairwise (List.pairwise_reverse.mpr pairwise_allBytes) (by simp) hi
    fun j hj => Nat.not_lt.mpr (hmax j hj)

/-- After SBOXGEN's loops an `ISBOX` cell holds the last index whose entry it is, or the zero of the first loop. -/
theorem memRead_isbox_sboxgenLoop_eq_find (m : Modulus) (c : Byte) (s : State) (v : Byte) :
    (sboxgenLoop m c s).memRead .isbox v =
      some ((allBytes.reverse.find? (sboxEntry m c · == v)).getD 0x00) := by
  rw [State.memRead, State.table_isbox, sboxgenLoop_isbox, Memory.read_writeAll, zeroFill_eq_writeAll,
    Memory.read_writeAll_id]
  cases allBytes.reverse.find? (sboxEntry m c · == v) <;> rfl

/-- Settles O33: the second loop runs in ascending order, so its last write to a cell is that of the largest index. -/
theorem inverseTableKeepsLargestIndex : Obligations.InverseTableKeepsLargestIndex := by
  intro m c s
  refine ⟨_, exec_sboxgen_next.mpr rfl, sboxEntry m c, fun i => ?_, fun v => ?_⟩
  · simp [memRead_sbox_sboxgenLoop]
  · simp only [State.memRead_setFlag, State.memRead_recordParams, memRead_isbox_sboxgenLoop_eq_find]
    constructor
    · intro hnone
      have hfind : allBytes.reverse.find? (sboxEntry m c · == v) = none := by simpa using hnone
      rw [hfind, Option.getD_none]
    · intro i hi hmax
      rw [find?_reverse_allBytes (by simpa using hi) (by simpa using hmax), Option.getD_some]

@[simp] theorem State.memRead_writeR (s : State) (v : Byte) (tab : Table) (k : Byte) :
    (s.writeR v).memRead tab k = s.memRead tab k := by cases tab <;> rfl

@[simp] theorem State.writeR_writeR (s : State) (v w : Byte) : (s.writeR v).writeR w = s.writeR w := rfl

@[simp] theorem State.setFlag_setFlag_same (s : State) (f : Flag) : (s.setFlag f).setFlag f = s.setFlag f := by
  simp [State.setFlag, setFlagIn, BitVec.or_assoc]

/-- A load changes nothing that it reads, and its own write made twice is that write. -/
theorem loadFrom_repeat {tab : Table} {idx : Byte} {s t : State} (h : loadFrom tab idx s = .next t) :
    loadFrom tab idx t = .next t := by
  rw [loadFrom_next]
  obtain ⟨htv, v, hread, rfl⟩ | ⟨htv, rfl⟩ := loadFrom_next.mp h
  · exact .inl ⟨htv, v, by simp [hread], by simp⟩
  · exact .inr ⟨by simp [State.flag_setFlag, htv], by simp⟩

/-- Settles O40: LDS and LDI are the same load, each of its own table. -/
theorem loadIsRepeatable : Obligations.LoadIsRepeatable :=
  fun _ _ _ => ⟨loadFrom_repeat, loadFrom_repeat⟩

end Sys2Proof.Machine
end

section
/-! The encoder gives a decoded word back (spec/30_encoding.md R71). -/

namespace Sys2Proof

/-- A field put back at its place in an empty word is the word with all other bits cleared. -/
theorem extractLsb'_at_place (w : Word) (k n : Nat) :
    (w.extractLsb' k n).setWidth 32 <<< k = w &&& ((BitVec.allOnes n).setWidth 32 <<< k) := by
  ext i hi
  by_cases hk : i < k
  · simp [hk]
  · have hki : k + (i - k) = i := by omega
    simp [hk, hki, BitVec.getLsbD_eq_getElem hi, Bool.and_comm]

theorem modulusField_at_place (w : Word) : (modulusField w).setWidth 32 <<< 16 = w &&& 0x01FF0000 :=
  extractLsb'_at_place w 16 9

theorem hiField_at_place (w : Word) : (hiField w).setWidth 32 <<< 8 = w &&& 0x0000FF00 :=
  extractLsb'_at_place w 8 8

theorem shiftField_at_place (w : Word) : (shiftField w).setWidth 32 <<< 8 = w &&& 0x00000F00 :=
  extractLsb'_at_place w 8 4

theorem loField_at_place (w : Word) : (loField w).setWidth 32 = w &&& 0x000000FF :=
  (BitVec.shiftLeft_zero _).symm.trans (extractLsb'_at_place w 0 8)

/-- Encoding the fields of a word, in any row, copies the bits that the row's mask leaves open: the fields of the row
are the complement of its mask (R62, R64). -/
theorem encode_withFieldsOf (i : Instr) (w : Word) :
    encode (i.withFieldsOf w) = i.row.pattern ||| (w &&& ~~~i.row.mask) := by
  cases i <;>
    simp only [Instr.withFieldsOf, encode, Instr.row, modulusField_at_place, hiField_at_place, shiftField_at_place,
      loField_at_place, BitVec.or_assoc, ← BitVec.and_or_distrib_left]
  case nop => simp [rowNop]
  case clrf => simp [rowClrf]
  all_goals rfl

/-- Encoding a decoded word gives it back (R71): the row fixes the bits under its mask, the fields hold the others. -/
theorem encode_of_decode {w : Word} {i : Instr} (h : decode w = .command i) : encode i = w := by
  obtain ⟨hrow, hfields⟩ := row_holds_of_decode h
  calc encode i = encode (i.withFieldsOf w) := by rw [hfields]
    _ = (w &&& i.row.mask) ||| (w &&& ~~~i.row.mask) := by rw [encode_withFieldsOf, OpcodeRow.holds_iff.mp hrow]
    _ = w := by rw [← BitVec.and_or_distrib_left, BitVec.or_not_self, BitVec.and_allOnes]

/-- Settles O9: the decoder finds the row and the operands that the encoder wrote, and a decoded word has no bits but
its row's and its operands'. -/
theorem decodeAndEncodeAgree : Obligations.DecodeAndEncodeAgree :=
  ⟨decode_encode, fun _ _ => encode_of_decode⟩

end Sys2Proof
end

section
/-! Which words are commands and which are illegal: the rows of the opcode map, their opcodes and reserved bits
(spec/30_encoding.md R64 to R66). -/

namespace Sys2Proof

/-- Every row of the opcode map is some command's (R64). -/
theorem exists_row_eq {row : OpcodeRow} (h : row ∈ opcodeMap) : ∃ i : Instr, i.row = row := by
  simp only [opcodeMap, List.mem_cons, List.not_mem_nil, or_false] at h
  obtain rfl | rfl | rfl | rfl | rfl | rfl | rfl | rfl | rfl := h
  · exact ⟨.nop, rfl⟩
  · exact ⟨.rotl 0 0, rfl⟩
  · exact ⟨.gfmul 0 0 0, rfl⟩
  · exact ⟨.gfinv 0 0, rfl⟩
  · exact ⟨.affine 0 0, rfl⟩
  · exact ⟨.sboxgen 0 0, rfl⟩
  · exact ⟨.lds 0, rfl⟩
  · exact ⟨.ldi 0, rfl⟩
  · exact ⟨.clrf, rfl⟩

@[simp] theorem Instr.row_withFieldsOf (i : Instr) (w : Word) : (i.withFieldsOf w).row = i.row := by
  cases i <;> rfl

/-- A word of a row decodes to a command of that row (R64). -/
theorem exists_decode_of_row_holds {row : OpcodeRow} {w : Word} (hrow : row ∈ opcodeMap) (h : row.holds w = true) :
    ∃ i, decode w = .command i ∧ i.row = row := by
  obtain ⟨i, rfl⟩ := exists_row_eq hrow
  exact ⟨i.withFieldsOf w, decode_of_row_holds h, i.row_withFieldsOf w⟩

/-- Settles O8: the decoder's test of a row is the row's mask and pattern, and the rows exclude each other. -/
theorem decoderFollowsOpcodeMap : Obligations.DecoderFollowsOpcodeMap := by
  refine ⟨rfl, fun w i h => OpcodeRow.holds_iff.mp (row_holds_of_decode h).1,
    fun w row hrow h => exists_decode_of_row_holds hrow (OpcodeRow.holds_iff.mpr h),
    fun w row hrow row' hrow' h h' => ?_⟩
  have hsame := OpcodeRow.holds_eq_decide hrow' hrow (OpcodeRow.holds_iff.mpr h')
  simpa [OpcodeRow.holds_iff.mpr h] using hsame

theorem opField_toNat (w : Word) : (opField w).toNat = w.toNat / 2 ^ 28 := by
  have hw := w.isLt
  rw [opField, BitVec.extractLsb'_toNat, Nat.shiftRight_eq_div_pow, Nat.mod_eq_of_lt (by omega)]

/-- Every mask covers the opcode (R64). -/
theorem opField_mask : ∀ row ∈ opcodeMap, opField row.mask = BitVec.allOnes 4 := by decide

theorem opField_of_row_holds {row : OpcodeRow} {w : Word} (hrow : row ∈ opcodeMap) (h : row.holds w = true) :
    opField w = opField row.pattern := by
  have hop : opField (w &&& row.mask) = opField w &&& opField row.mask := BitVec.extractLsb'_and
  rw [← OpcodeRow.holds_iff.mp h, hop, opField_mask row hrow, BitVec.and_allOnes]

/-- No two rows have one opcode (R64). -/
theorem eq_of_opField_pattern_eq : ∀ row ∈ opcodeMap, ∀ row' ∈ opcodeMap,
    opField row.pattern = opField row'.pattern → row = row' := by decide

theorem opField_pattern_le : ∀ row ∈ opcodeMap, (opField row.pattern).toNat ≤ 8 := by decide

/-- A word that no row has is illegal (R67). -/
theorem exists_illegal_of_no_row {w : Word} (h : ∀ row ∈ opcodeMap, row.holds w ≠ true) :
    ∃ why, decode w = .illegal why := by
  cases hd : decode w with
  | command i => exact absurd (row_holds_of_decode hd).1 (h i.row i.row_mem)
  | illegal why => exact ⟨why, rfl⟩

/-- Settles O10: a word can be in the one row of its opcode alone, and an opcode above 8 has no row. -/
theorem reservedEncodingsAreIllegal : Obligations.ReservedEncodingsAreIllegal := by
  refine ⟨fun w row hrow hop hne => ?_, by decide, ⟨.reservedBitSet, by decide⟩, fun w hw => ?_⟩
  · refine exists_illegal_of_no_row fun row' hrow' h' => hne (OpcodeRow.holds_iff.mp ?_)
    have hop' : opField row.pattern = opField row'.pattern := by
      rw [← opField_of_row_holds hrow' h', ← BitVec.toNat_inj, opField_toNat, opField_toNat, hop]
    rwa [eq_of_opField_pattern_eq row hrow row' hrow' hop']
  · refine exists_illegal_of_no_row fun row hrow h => ?_
    have hle := opField_pattern_le row hrow
    rw [← opField_of_row_holds hrow h, opField_toNat] at hle
    omega

end Sys2Proof
end

section
/-! How many words are legal (spec/30_encoding.md R67), and nine of them (R62). -/

namespace Sys2Proof

/-- The legal words are the encodings of the commands, one each. -/
theorem card_legal_words : Nat.card { w : Word // ∃ i, decode w = .command i } = Nat.card Instr := by
  refine (Nat.card_eq_of_bijective (fun i : Instr => ⟨encode i, i, decode_encode i⟩) ⟨fun i j h => ?_, ?_⟩).symm
  · have hij : encode i = encode j := congrArg Subtype.val h
    simpa [hij] using (decode_encode i).symm
  · rintro ⟨w, i, h⟩
    exact ⟨i, Subtype.ext (encode_of_decode h)⟩

theorem card_bitVec (n : Nat) : Nat.card (BitVec n) = 2 ^ n := by
  rw [Nat.card_congr BitVec.equivFin.toEquiv, Nat.card_fin]

/-- The commands as a sum over the mnemonics, each with its operands as a product (R67). -/
def instrEquiv : Instr ≃ Unit ⊕ (ShiftField × Byte) ⊕ (Modulus × Byte × Byte) ⊕ (Modulus × Byte) ⊕ (Byte × Byte) ⊕
    (Modulus × Byte) ⊕ Byte ⊕ Byte ⊕ Unit where
  toFun
    | .nop => .inl ()
    | .rotl s x => .inr (.inl (s, x))
    | .gfmul m a b => .inr (.inr (.inl (m, a, b)))
    | .gfinv m x => .inr (.inr (.inr (.inl (m, x))))
    | .affine c x => .inr (.inr (.inr (.inr (.inl (c, x)))))
    | .sboxgen m c => .inr (.inr (.inr (.inr (.inr (.inl (m, c))))))
    | .lds idx => .inr (.inr (.inr (.inr (.inr (.inr (.inl idx))))))
    | .ldi idx => .inr (.inr (.inr (.inr (.inr (.inr (.inr (.inl idx)))))))
    | .clrf => .inr (.inr (.inr (.inr (.inr (.inr (.inr (.inr ())))))))
  invFun
    | .inl () => .nop
    | .inr (.inl (s, x)) => .rotl s x
    | .inr (.inr (.inl (m, a, b))) => .gfmul m a b
    | .inr (.inr (.inr (.inl (m, x)))) => .gfinv m x
    | .inr (.inr (.inr (.inr (.inl (c, x))))) => .affine c x
    | .inr (.inr (.inr (.inr (.inr (.inl (m, c)))))) => .sboxgen m c
    | .inr (.inr (.inr (.inr (.inr (.inr (.inl idx)))))) => .lds idx
    | .inr (.inr (.inr (.inr (.inr (.inr (.inr (.inl idx))))))) => .ldi idx
    | .inr (.inr (.inr (.inr (.inr (.inr (.inr (.inr ()))))))) => .clrf
  left_inv i := by cases i <;> rfl
  right_inv := by rintro (_ | _ | _ | _ | _ | _ | _ | _ | _) <;> rfl

/-- R67's sum. -/
theorem card_instr : Nat.card Instr = 1 + 2 ^ 12 + 2 ^ 25 + 2 ^ 17 + 2 ^ 16 + 2 ^ 17 + 2 ^ 8 + 2 ^ 8 + 1 := by
  rw [Nat.card_congr instrEquiv]
  simp only [Nat.card_sum, Nat.card_prod, Nat.card_unique, card_bitVec]
  norm_num

/-- Settles O11: the legal words are as many as the commands. -/
theorem legalWordCount : Obligations.LegalWordCount := by
  unfold Obligations.LegalWordCount
  rw [card_legal_words, card_instr]
  norm_num

/-- Settles O12: each word evaluated by the decoder. -/
theorem writtenWordsDecode : Obligations.WrittenWordsDecode := by
  unfold Obligations.WrittenWordsDecode
  decide

end Sys2Proof
end

section
/-! The assembler's range check and the words that it writes (spec/30_encoding.md R72). -/

namespace Sys2Proof

@[simp] theorem fitsByte_iff {v : Nat} : fitsByte v = true ↔ v ≤ 255 := by
  rw [fitsByte, decide_eq_true_eq]
  omega

@[simp] theorem fitsModulus_iff {v : Nat} : fitsModulus v = true ↔ v ≤ 0x1FF := by
  rw [fitsModulus, decide_eq_true_eq]
  omega

@[simp] theorem fitsShift_iff {v : Nat} : fitsShift v = true ↔ v ≤ 15 := by
  rw [fitsShift, decide_eq_true_eq]
  omega

theorem ofNat_shiftLeft (v k : Nat) : BitVec.ofNat 32 (v <<< k) = BitVec.ofNat 32 v <<< k := by
  apply BitVec.eq_of_toNat_eq
  simp [Nat.shiftLeft_eq]

/-- A command whose range check is `P` is refused outside `P` and encoded in it (R72). -/
theorem map_encode_assemble {k : AsmCommand} {P : Prop} [Decidable P] {v : Word} (hwf : k.wf = true ↔ P)
    (hv : P → encode k.toInstr = v) : k.assemble.map encode = if P then some v else none := by
  unfold AsmCommand.assemble
  by_cases h : P
  · simp [h, hwf.mpr h, hv h]
  · simp [h, hwf]

/-- Settles O13: each command's range check is its bounds, and an operand in them enters the word as the number that it
is, at its field's place. -/
theorem assemblerRefusesOutOfRange : Obligations.AssemblerRefusesOutOfRange := by
  refine ⟨rfl, rfl,
    fun x s => map_encode_assemble (by simp [AsmCommand.wf]) fun ⟨hx, hs⟩ => ?_,
    fun a b m => map_encode_assemble (by simp [AsmCommand.wf, and_assoc]) fun ⟨ha, hb, hm⟩ => ?_,
    fun x m => map_encode_assemble (by simp [AsmCommand.wf]) fun ⟨hx, hm⟩ => ?_,
    fun x c => map_encode_assemble (by simp [AsmCommand.wf]) fun ⟨hx, hc⟩ => ?_,
    fun m c => map_encode_assemble (by simp [AsmCommand.wf]) fun ⟨hm, hc⟩ => ?_,
    fun idx => map_encode_assemble (by simp [AsmCommand.wf]) fun hidx => ?_,
    fun idx => map_encode_assemble (by simp [AsmCommand.wf]) fun hidx => ?_⟩
  all_goals
    simp (disch := omega) only [AsmCommand.toInstr, encode, BitVec.ofNat_or, ofNat_shiftLeft,
      BitVec.setWidth_ofNat_of_le_of_lt]
    rfl

end Sys2Proof
end

section
/-! Bit rotation (spec/40_bit_rotation.md): where each bit goes (R80), ROTL (R82), and the laws, all of which are read
off from where the bits go (R83). -/

namespace Sys2Proof.Machine

/-- R80's formula, in which the mask takes the place of the byte's width. -/
theorem rotl8_toNat (x : Byte) (s : ShiftCount) :
    (rotl8 x s).toNat = ((x.toNat <<< s.n) &&& 0xFF) ||| (x.toNat >>> (8 - s.n)) := by
  rw [rotl8, BitVec.toNat_or, BitVec.toNat_shiftLeft, BitVec.toNat_ushiftRight, ← Nat.and_two_pow_sub_one_eq_mod]

/-- Bit `j` of a rotated byte comes from `s` places below, modulo 8 (R80): from the left shift for `j ≥ s`, from the
right shift for the others. -/
theorem getLsbD_rotl8 (x : Byte) (s : ShiftCount) {j : Nat} (hj : j < 8) :
    (rotl8 x s).getLsbD j = x.getLsbD ((j + (8 - s.n)) % 8) := by
  have hle := s.le_seven
  rw [rotl8, BitVec.getLsbD_or, BitVec.getLsbD_shiftLeft, BitVec.getLsbD_ushiftRight]
  by_cases hlow : j < s.n
  · have hsource : (j + (8 - s.n)) % 8 = 8 - s.n + j := by omega
    simp [hlow, hsource]
  · have hsource : (j + (8 - s.n)) % 8 = j - s.n := by omega
    have hout : x.getLsbD (8 - s.n + j) = false := BitVec.getLsbD_of_ge _ _ (by omega)
    simp [hlow, hj, hsource, hout]

/-- Settles O15: the formula, and the two readings of where a bit goes. -/
theorem rotationMovesBits : Obligations.RotationMovesBits := by
  intro x s
  have hle := s.le_seven
  refine ⟨rotl8_toNat x s, fun j hj => ?_, fun k hk => ?_⟩
  · rw [getLsbD_rotl8 x s hj, Nat.add_sub_assoc (by omega)]
  · have hback : ((k + s.n) % 8 + (8 - s.n)) % 8 = k := by omega
    rw [getLsbD_rotl8 x s (Nat.mod_lt _ (by decide)), hback]

/-- Settles O14: the words are those of ROTL's row; ROTL's guard tells the two outcomes apart. -/
theorem rotlRotatesOrRejects : Obligations.RotlRotatesOrRejects := by
  refine ⟨fun w hw => decode_of_row_holds (i := .rotl 0 0) (OpcodeRow.holds_iff.mpr hw),
    fun sh x s hpos hle => ?_, fun sh x s hout => ?_⟩
  · have hvalue : rotl8 x ⟨sh.toNat, hpos, hle⟩ =
        BitVec.ofNat 8 (((x.toNat <<< sh.toNat) &&& 0xFF) ||| (x.toNat >>> (8 - sh.toNat))) := by
      rw [← rotl8_toNat x ⟨sh.toNat, hpos, hle⟩, BitVec.ofNat_toNat, BitVec.setWidth_eq]
    rw [← hvalue]
    exact exec_rotl_next.mpr (.inl ⟨_, shiftCount?_eq_some.mpr rfl, rfl⟩)
  · exact exec_rotl_next.mpr (.inr ⟨shiftCount?_eq_none.mpr hout, rfl⟩)

/-- A second rotation takes each bit from `t` places further below. -/
theorem getLsbD_rotl8_rotl8 (x : Byte) (s t : ShiftCount) {j : Nat} (hj : j < 8) :
    (rotl8 (rotl8 x s) t).getLsbD j = x.getLsbD ((j + (8 - t.n) + (8 - s.n)) % 8) := by
  rw [getLsbD_rotl8 _ t hj, getLsbD_rotl8 x s (Nat.mod_lt _ (by decide)), Nat.mod_add_mod]

/-- Two rotations are the rotation by the sum modulo 8, where that is a count (R83). -/
theorem rotl8_rotl8 (x : Byte) {s t u : ShiftCount} (hu : u.n = (s.n + t.n) % 8) :
    rotl8 (rotl8 x s) t = rotl8 x u := by
  refine BitVec.eq_of_getLsbD_eq fun j hj => ?_
  have hs := s.le_seven
  have ht := t.le_seven
  have hsource : (j + (8 - t.n) + (8 - s.n)) % 8 = (j + (8 - u.n)) % 8 := by omega
  rw [getLsbD_rotl8_rotl8 x s t hj, getLsbD_rotl8 x u hj, hsource]

/-- Two rotations whose counts add up to 0 modulo 8 undo each other (R83). -/
theorem rotl8_rotl8_cancel (x : Byte) {s t : ShiftCount} (h : (s.n + t.n) % 8 = 0) : rotl8 (rotl8 x s) t = x := by
  refine BitVec.eq_of_getLsbD_eq fun j hj => ?_
  have hs := s.le_seven
  have ht := t.le_seven
  have hsource : (j + (8 - t.n) + (8 - s.n)) % 8 = j := by omega
  rw [getLsbD_rotl8_rotl8 x s t hj, hsource]

theorem getLsbD_rotl8_iterate (s : ShiftCount) (n : Nat) (x : Byte) {j : Nat} (hj : j < 8) :
    ((fun y => rotl8 y s)^[n] x).getLsbD j = x.getLsbD ((j + n * (8 - s.n)) % 8) := by
  induction n generalizing x with
  | zero => simp [Nat.mod_eq_of_lt hj]
  | succ n ih =>
    rw [Function.iterate_succ_apply, ih, getLsbD_rotl8 x s (Nat.mod_lt _ (by decide)), Nat.mod_add_mod, Nat.succ_mul,
      Nat.add_assoc]

/-- Eight rotations by one count take each bit round to its place. -/
theorem rotl8_iterate_eight (s : ShiftCount) (x : Byte) : (fun y => rotl8 y s)^[8] x = x := by
  refine BitVec.eq_of_getLsbD_eq fun j hj => ?_
  rw [getLsbD_rotl8_iterate s 8 x hj, Nat.add_mul_mod_self_left, Nat.mod_eq_of_lt hj]

theorem rotl8_xor (x y : Byte) (s : ShiftCount) : rotl8 (x ^^^ y) s = rotl8 x s ^^^ rotl8 y s := by
  refine BitVec.eq_of_getLsbD_eq fun j hj => ?_
  simp only [BitVec.getLsbD_xor, getLsbD_rotl8 _ s hj]

@[simp] theorem rotl8_zero (s : ShiftCount) : rotl8 0x00 s = 0x00 := by
  simp [rotl8]

@[simp] theorem rotl8_allOnes (s : ShiftCount) : rotl8 0xFF s = 0xFF := by
  rw [show (0xFF : Byte) = BitVec.allOnes 8 from rfl]
  refine BitVec.eq_of_getLsbD_eq fun j hj => ?_
  have hsource : (j + (8 - s.n)) % 8 < 8 := Nat.mod_lt _ (by decide)
  rw [getLsbD_rotl8 _ s hj, BitVec.getLsbD_allOnes, BitVec.getLsbD_allOnes, decide_eq_true hj, decide_eq_true hsource]

/-- Adding a constant modulo 8 to the bit positions rotates their list. -/
theorem map_add_mod_range (d : Nat) : (List.range 8).map (fun j => (j + d) % 8) = (List.range 8).rotate d := by
  apply List.ext_getElem
  · simp
  · intro j _ _
    simp [List.getElem_rotate]

/-- The 1 bits of a rotated byte are counted over the same bit positions in another order. -/
theorem onesOf_rotl8 (x : Byte) (s : ShiftCount) : onesOf (rotl8 x s) = onesOf x := by
  calc onesOf (rotl8 x s) = (List.range 8).countP fun j => x.getLsbD ((j + (8 - s.n)) % 8) :=
        List.countP_congr fun j hj => by rw [getLsbD_rotl8 x s (List.mem_range.mp hj)]
    _ = ((List.range 8).rotate (8 - s.n)).countP fun k => x.getLsbD k := by
        rw [← map_add_mod_range, List.countP_map]; rfl
    _ = onesOf x := (List.rotate_perm _ _).countP_eq _

/-- The count `8 - s` of the inverse rotation (R83). -/
def ShiftCount.complement (s : ShiftCount) : ShiftCount :=
  ⟨8 - s.n, Nat.le_sub_of_add_le (Nat.add_le_add_left s.le_seven 1), Nat.sub_le_sub_left s.pos 8⟩

theorem rotl8_bijective (s : ShiftCount) : Function.Bijective fun x => rotl8 x s := by
  have hle := s.le_seven
  refine Function.bijective_iff_has_inverse.mpr ⟨fun x => rotl8 x s.complement, fun x => ?_, fun x => ?_⟩
  · exact rotl8_rotl8_cancel x (by simp only [ShiftCount.complement]; omega)
  · exact rotl8_rotl8_cancel x (by simp only [ShiftCount.complement]; omega)

/-- Settles O16: each law by where the bits go. -/
theorem rotationLaws : Obligations.RotationLaws := by
  refine ⟨fun x s t => ⟨fun u hu => rotl8_rotl8 x hu, rotl8_rotl8_cancel x⟩, rotl8_iterate_eight shift1,
    fun x y s => ⟨rotl8_xor x y s, rotl8_zero s, rotl8_allOnes s, onesOf_rotl8 x s⟩,
    fun s => ⟨rotl8_bijective s, fun t ht x => rotl8_rotl8_cancel x ?_⟩⟩
  have hle := s.le_seven
  omega

end Sys2Proof.Machine
end

section
/-! The multiplier's loop, register by register (spec/41_field_multiplier.md R90), and the GFMUL command (R93). -/

namespace Sys2Proof.Machine

/-- The consumed copy of `b` does not depend on the other registers. -/
@[simp] theorem mulRun_bv (m : Modulus) (w : MulWork) (k : Nat) : (mulRun m w k).bv = w.bv >>> k := by
  induction k with
  | zero => simp
  | succ k ih => rw [mulRun_succ, BitVec.shiftRight_add, ← ih]; rfl

theorem mulRun_av_succ (m : Modulus) (w : MulWork) (k : Nat) :
    (mulRun m w (k + 1)).av = shiftReduce m (mulRun m w k).av := rfl

/-- Iteration `k` adds `av` exactly when bit `k` of `b` is set. -/
theorem mulRun_acc_succ (m : Modulus) (w : MulWork) (k : Nat) :
    (mulRun m w (k + 1)).acc =
      if w.bv.getLsbD k then (mulRun m w k).acc ^^^ (mulRun m w k).av else (mulRun m w k).acc := by
  rw [mulRun_succ, mulIteration, mulRun_bv, BitVec.getLsbD_ushiftRight, Nat.add_zero]

theorem gfmul_toNat (a b : Byte) (m : Modulus) : (gfmul a b m).toNat = (mulRun m (mulStart a b) 8).acc.toNat &&& 0xFF :=
  (BitVec.toNat_setWidth _ _).trans (Nat.and_two_pow_sub_one_eq_mod _ 8).symm

/-- Settles O17: the words are those of GFMUL's row, and the command is one write of `R`. -/
theorem gfmulWritesProduct : Obligations.GfmulWritesProduct :=
  ⟨fun _ hw => decode_of_row_holds (i := .gfmul 0 0 0) (OpcodeRow.holds_iff.mpr hw),
    fun _ _ _ _ => exec_gfmul_next.mpr rfl⟩

/-! ### Under a modulus with bit 8 set -/

theorem getLsbD_eight_eq_decide (v : BitVec 9) : v.getLsbD 8 = decide (0x100 ≤ v.toNat) :=
  v.msb_eq_getLsbD_last.symm.trans v.msb_eq_decide

theorem toNat_lt_of_getLsbD_eight {v : BitVec 9} (h : v.getLsbD 8 = false) : v.toNat < 0x100 := by
  rw [getLsbD_eight_eq_decide, decide_eq_false_iff_not] at h
  omega

theorem getLsbD_of_getLsbD_eight {v : BitVec 9} (h : v.getLsbD 8 = false) (j : Nat) (hj : 8 ≤ j) :
    v.getLsbD j = false := by
  rcases hj.eq_or_lt with rfl | hj
  · exact h
  · exact v.getLsbD_of_ge j hj

/-- The XOR with the modulus clears the bit that called for it (R91). -/
theorem shiftReduce_getLsbD_eight {m : Modulus} (hm : m.getLsbD 8 = true) (v : BitVec 9) :
    (shiftReduce m v).getLsbD 8 = false := by
  unfold shiftReduce
  split
  · next hset => rw [BitVec.getLsbD_xor, hset, hm, Bool.xor_self]
  · next hclear => simpa using hclear

theorem mulRun_av_getLsbD_eight {m : Modulus} (hm : m.getLsbD 8 = true) (a b : Byte) (k : Nat) :
    (mulRun m (mulStart a b) k).av.getLsbD 8 = false := by
  cases k with
  | zero => simp [mulStart, zext9]
  | succ k => exact shiftReduce_getLsbD_eight hm _

theorem mulRun_acc_getLsbD_eight {m : Modulus} (hm : m.getLsbD 8 = true) (a b : Byte) (k : Nat) :
    (mulRun m (mulStart a b) k).acc.getLsbD 8 = false := by
  induction k with
  | zero => simp [mulStart]
  | succ k ih =>
    rw [mulRun_acc_succ]
    split
    · rw [BitVec.getLsbD_xor, ih, mulRun_av_getLsbD_eight hm, Bool.xor_self]
    · exact ih

end Sys2Proof.Machine
end

section
/-! The nine-bit multiplier against the source's algorithm on unbounded integers (spec/41_field_multiplier.md R91). -/

namespace Sys2Proof.Machine

/-- The unbounded registers agree with the multiplier's in every bit that the multiplier holds. -/
def Truncates (u : Nat × Nat × Nat) (w : MulWork) : Prop :=
  BitVec.ofNat 9 u.1 = w.acc ∧ BitVec.ofNat 9 u.2.1 = w.av ∧ u.2.2 = w.bv.toNat

/-- With the bit-8 test no bit above 8 of an unbounded register comes down into the low nine. -/
theorem truncates_iteration {u : Nat × Nat × Nat} {w : MulWork} (m : Modulus) (h : Truncates u w) :
    Truncates (unboundedIteration setsBit8 m.toNat u) (mulIteration m w) := by
  obtain ⟨hacc, hav, hbv⟩ := h
  have hbit : w.bv.getLsbD 0 = u.2.2.testBit 0 := by rw [hbv]; rfl
  have hshift : BitVec.ofNat 9 (u.2.1 <<< 1) = w.av <<< 1 :=
    BitVec.eq_of_toNat_eq (by simp [← hav, Nat.shiftLeft_eq])
  have htest : (w.av <<< 1).getLsbD 8 = setsBit8 (u.2.1 <<< 1) := by
    rw [← hshift, BitVec.getLsbD_ofNat, setsBit8]; rfl
  refine ⟨?_, ?_, ?_⟩
  · simp only [unboundedIteration, mulIteration, hbit, apply_ite (BitVec.ofNat 9), BitVec.ofNat_xor, hacc, hav]
  · simp only [unboundedIteration, mulIteration, shiftReduce, htest, apply_ite (BitVec.ofNat 9), BitVec.ofNat_xor,
      hshift, BitVec.ofNat_toNat, BitVec.setWidth_eq]
  · simp [unboundedIteration, mulIteration, hbv]

theorem truncates_run (m : Modulus) (a b : Byte) (k : Nat) :
    Truncates ((unboundedIteration setsBit8 m.toNat)^[k] (0, a.toNat, b.toNat)) (mulRun m (mulStart a b) k) := by
  induction k with
  | zero => exact ⟨rfl, BitVec.ofNat_toNat _ _, rfl⟩
  | succ k ih => rw [Function.iterate_succ_apply']; exact truncates_iteration m ih

theorem unboundedIteration_mk (reduces : Nat → Bool) (m acc av bv : Nat) :
    unboundedIteration reduces m (acc, av, bv) =
      (if bv.testBit 0 then acc ^^^ av else acc, if reduces (av <<< 1) then (av <<< 1) ^^^ m else av <<< 1, bv >>> 1) :=
  rfl

/-- The multiplier's registers as numbers. -/
def MulWork.nats (w : MulWork) : Nat × Nat × Nat := (w.acc.toNat, w.av.toNat, w.bv.toNat)

/-- While `av` is below `0x100` the shift loses nothing, and bit 8 is set exactly when the value is at least `0x100`. -/
theorem unboundedIteration_nats (m : Modulus) {w : MulWork} (hav : w.av.toNat < 0x100) :
    unboundedIteration atLeast0x100 m.toNat w.nats = (mulIteration m w).nats := by
  have hshift : (w.av <<< 1).toNat = w.av.toNat <<< 1 := by
    rw [BitVec.toNat_shiftLeft, Nat.shiftLeft_eq, Nat.mod_eq_of_lt (by omega)]
  have htest : (w.av <<< 1).getLsbD 8 = atLeast0x100 (w.av.toNat <<< 1) := by
    rw [getLsbD_eight_eq_decide, hshift, atLeast0x100]
  have hbit : w.bv.getLsbD 0 = w.bv.toNat.testBit 0 := rfl
  rw [MulWork.nats, unboundedIteration_mk]
  simp only [MulWork.nats, mulIteration, shiftReduce, htest, hbit, hshift, apply_ite BitVec.toNat, BitVec.toNat_xor,
    BitVec.toNat_ushiftRight]

theorem unboundedIteration_iterate_nats {m : Modulus} (hm : m.getLsbD 8 = true) (a b : Byte) (k : Nat) :
    (unboundedIteration atLeast0x100 m.toNat)^[k] (0, a.toNat, b.toNat) = (mulRun m (mulStart a b) k).nats := by
  induction k with
  | zero =>
    have ha : (zext9 a).toNat = a.toNat := BitVec.toNat_setWidth_of_le (by decide)
    simp [MulWork.nats, mulStart, ha]
  | succ k ih =>
    rw [Function.iterate_succ_apply', ih, mulRun_succ,
      unboundedIteration_nats m (toNat_lt_of_getLsbD_eight (mulRun_av_getLsbD_eight hm a b k))]

/-- Settles O18: both unbounded algorithms are followed register by register, and bit 8 of `av` and `acc` is clear. -/
theorem multiplierAgreesWithUnboundedIntegers : Obligations.MultiplierAgreesWithUnboundedIntegers := by
  refine ⟨fun a b m => ?_, fun a b m hm => ?_, fun a b m hm k _ => ⟨?_, ?_⟩⟩
  · obtain ⟨hacc, -⟩ := truncates_run m a b 8
    simp only [gfmul, Config.mulIterations, ← hacc, unboundedMul]
    rw [BitVec.setWidth_ofNat_of_le (by decide), BitVec.toNat_ofNat]
    exact (Nat.and_two_pow_sub_one_eq_mod _ 8).symm
  · rw [gfmul_toNat, unboundedMul, unboundedIteration_iterate_nats hm, MulWork.nats]
  · exact toNat_lt_of_getLsbD_eight (mulRun_av_getLsbD_eight hm a b k)
  · exact toNat_lt_of_getLsbD_eight (mulRun_acc_getLsbD_eight hm a b k)

end Sys2Proof.Machine
end

section
/-! Bit 8 of the modulus changes no low bit of any register, and so no product, inverse or table
(spec/41_field_multiplier.md R97). -/

namespace Sys2Proof.Machine

/-- The low eight bits of the next `av` are made from the low eight bits of `av` and of the modulus alone. -/
theorem shiftReduce_setWidth (m : Modulus) (v : BitVec 9) :
    (shiftReduce m v).setWidth 8 =
      if (v.setWidth 8).getLsbD 7 then (v.setWidth 8 <<< 1) ^^^ m.setWidth 8 else v.setWidth 8 <<< 1 := by
  have hshift : (v <<< 1).setWidth 8 = v.setWidth 8 <<< 1 := by
    ext j hj
    simp
  have htest : (v <<< 1).getLsbD 8 = (v.setWidth 8).getLsbD 7 := by simp
  rw [shiftReduce, htest, apply_ite (BitVec.setWidth 8), BitVec.setWidth_xor, hshift]

theorem mulRun_av_setWidth_congr {m m' : Modulus} (h : m.setWidth 8 = m'.setWidth 8) (w : MulWork) (k : Nat) :
    (mulRun m w k).av.setWidth 8 = (mulRun m' w k).av.setWidth 8 := by
  induction k with
  | zero => rfl
  | succ k ih => rw [mulRun_av_succ, mulRun_av_succ, shiftReduce_setWidth, shiftReduce_setWidth, ih, h]

theorem mulRun_acc_setWidth_congr {m m' : Modulus} (h : m.setWidth 8 = m'.setWidth 8) (w : MulWork) (k : Nat) :
    (mulRun m w k).acc.setWidth 8 = (mulRun m' w k).acc.setWidth 8 := by
  induction k with
  | zero => rfl
  | succ k ih =>
    simp only [mulRun_acc_succ, apply_ite (BitVec.setWidth 8), BitVec.setWidth_xor, ih, mulRun_av_setWidth_congr h w k]

/-- The multiplier reads the low eight bits of the modulus alone. -/
theorem gfmul_congr_modulus {m m' : Modulus} (h : m.setWidth 8 = m'.setWidth 8) (a b : Byte) :
    gfmul a b m = gfmul a b m' :=
  mulRun_acc_setWidth_congr h _ _

theorem gfinv_congr_modulus {m m' : Modulus} (h : m.setWidth 8 = m'.setWidth 8) (x : Byte) : gfinv x m = gfinv x m' := by
  simp only [gfinv, findInverse, gfmul_congr_modulus h]

theorem gen_congr_modulus {m m' : Modulus} (h : m.setWidth 8 = m'.setWidth 8) (c : Byte) : gen m c = gen m' c := by
  have hiter : genIteration m c = genIteration m' c := by
    funext t i
    simp only [genIteration, gfinv_congr_modulus h]
  rw [gen, gen, hiter]

theorem setWidth_or_bit8 (m : Modulus) : (0x100 ||| m).setWidth 8 = m.setWidth 8 := by
  rw [BitVec.setWidth_or]
  exact BitVec.zero_or

/-- Settles O22: both moduli have the low eight bits `p`. -/
theorem modulusBit8HasNoEffect : Obligations.ModulusBit8HasNoEffect := by
  intro p
  have h := (setWidth_or_bit8 (p.setWidth 9)).symm
  exact ⟨gfmul_congr_modulus h, gfinv_congr_modulus h, gen_congr_modulus h⟩

end Sys2Proof.Machine
end

section
/-! Bytes and moduli as polynomials over GF(2) (spec/00_scope.md R9). -/

namespace Sys2Proof.Machine

open Polynomial

theorem coeff_polyOf {n : Nat} (v : BitVec n) (k : Nat) : (polyOf v).coeff k = if v.getLsbD k then 1 else 0 := by
  have hterm : ∀ j, (if v.getLsbD j then X ^ j else 0 : (ZMod 2)[X]).coeff k =
      if k = j then (if v.getLsbD k then 1 else 0) else 0 := fun j => by
    rw [apply_ite (coeff · k), coeff_X_pow, coeff_zero]
    by_cases hkj : k = j <;> simp [hkj]
  simp only [polyOf, finsetSum_coeff, hterm, Finset.sum_ite_eq, Finset.mem_range]
  by_cases hk : k < n
  · simp [hk]
  · simp [hk, BitVec.getLsbD_of_ge v k (Nat.le_of_not_lt hk)]

/-- The coefficients give the bits back. -/
theorem getLsbD_eq_coeff_polyOf {n : Nat} (v : BitVec n) (k : Nat) :
    v.getLsbD k = decide ((polyOf v).coeff k = 1) := by
  rw [coeff_polyOf]
  cases v.getLsbD k <;> simp

theorem polyOf_injective (n : Nat) : Function.Injective (polyOf (n := n)) := by
  intro v w h
  refine BitVec.eq_of_getLsbD_eq fun k _ => ?_
  rw [getLsbD_eq_coeff_polyOf, getLsbD_eq_coeff_polyOf, h]

@[simp] theorem polyOf_zero (n : Nat) : polyOf 0#n = 0 := by
  ext k
  simp [coeff_polyOf]

theorem polyOf_one : polyOf (1 : Byte) = 1 := by
  ext k
  simp [coeff_polyOf, coeff_one]

/-- The XOR adds without carry: coefficients in GF(2). -/
theorem polyOf_xor {n : Nat} (v w : BitVec n) : polyOf (v ^^^ w) = polyOf v + polyOf w := by
  ext k
  simp only [coeff_add, coeff_polyOf, BitVec.getLsbD_xor]
  cases v.getLsbD k <;> cases w.getLsbD k <;> decide

/-- Widening adds no coefficient, and narrowing loses none where the bits lost are 0. -/
theorem polyOf_setWidth {n k : Nat} {v : BitVec n} (h : ∀ j, k ≤ j → v.getLsbD j = false) :
    polyOf (v.setWidth k) = polyOf v := by
  ext j
  rw [coeff_polyOf, coeff_polyOf, BitVec.getLsbD_setWidth]
  by_cases hj : j < k
  · simp [hj]
  · simp [hj, h j (Nat.le_of_not_lt hj)]

/-- Shifting left by one multiplies by `x` where the top bit is 0. -/
theorem polyOf_shiftLeft_one {v : BitVec 9} (h : v.getLsbD 8 = false) : polyOf (v <<< 1) = polyOf v * X := by
  ext k
  cases k with
  | zero => simp [coeff_polyOf]
  | succ k =>
    rw [coeff_mul_X, coeff_polyOf, coeff_polyOf, BitVec.getLsbD_shiftLeft]
    by_cases hk : k < 8
    · simp [Nat.succ_lt_succ hk]
    · simp [getLsbD_of_getLsbD_eight h k (Nat.le_of_not_lt hk)]

theorem degree_polyOf_lt {n k : Nat} {v : BitVec n} (h : ∀ j, k ≤ j → v.getLsbD j = false) : (polyOf v).degree < k :=
  (degree_lt_iff_coeff_zero _ _).mpr fun j hj => by simp [coeff_polyOf, h j hj]

end Sys2Proof.Machine
end

section
/-! The multiplier as arithmetic of polynomials over GF(2) modulo the modulus (spec/41_field_multiplier.md R96), and the
laws that follow (R94, R95). -/

namespace Sys2Proof.Machine

open Polynomial

variable {m : Modulus}

theorem degree_polyOf_modulus (hm : m.getLsbD 8 = true) : (polyOf m).degree = 8 := by
  refine degree_eq_of_le_of_coeff_ne_zero (Order.le_of_lt_succ (degree_polyOf_lt m.getLsbD_of_ge)) ?_
  simp [coeff_polyOf, hm]

theorem monic_polyOf_modulus (hm : m.getLsbD 8 = true) : (polyOf m).Monic :=
  monic_of_degree_le 8 (degree_polyOf_modulus hm).le (by simp [coeff_polyOf, hm])

/-- What fits in eight bits is its own remainder. -/
theorem polyOf_modByMonic {n : Nat} (hm : m.getLsbD 8 = true) {v : BitVec n} (hv : ∀ j, 8 ≤ j → v.getLsbD j = false) :
    polyOf v %ₘ polyOf m = polyOf v :=
  (modByMonic_eq_self_iff (monic_polyOf_modulus hm)).mpr (degree_polyOf_modulus hm ▸ degree_polyOf_lt hv)

/-- A factor may be reduced before a product is. -/
theorem modByMonic_mul_modByMonic {q : (ZMod 2)[X]} (hq : q.Monic) (p r : (ZMod 2)[X]) :
    ((p %ₘ q) * r) %ₘ q = (p * r) %ₘ q :=
  modByMonic_eq_of_dvd_sub hq (by rw [← sub_mul]; exact (dvd_modByMonic_sub p q).mul_right r)

/-- The XOR with the modulus takes away the one multiple of `m(x)` that `x · v(x)` can hold. -/
theorem polyOf_shiftReduce (hm : m.getLsbD 8 = true) {v : BitVec 9} (hv : v.getLsbD 8 = false) :
    polyOf (shiftReduce m v) = (polyOf v * X) %ₘ polyOf m := by
  rw [← polyOf_modByMonic hm (getLsbD_of_getLsbD_eight (shiftReduce_getLsbD_eight hm v)), shiftReduce]
  split
  · rw [polyOf_xor, polyOf_shiftLeft_one hv, add_modByMonic, modByMonic_self (monic_polyOf_modulus hm), add_zero]
  · rw [polyOf_shiftLeft_one hv]

theorem polyOf_mulRun_av (hm : m.getLsbD 8 = true) (a b : Byte) (k : Nat) :
    polyOf (mulRun m (mulStart a b) k).av = (polyOf a * X ^ k) %ₘ polyOf m := by
  induction k with
  | zero =>
    have ha : polyOf (zext9 a) = polyOf a := polyOf_setWidth fun j hj => a.getLsbD_of_ge j (by omega)
    rw [pow_zero, mul_one, polyOf_modByMonic hm a.getLsbD_of_ge]
    exact ha
  | succ k ih =>
    rw [mulRun_av_succ, polyOf_shiftReduce hm (mulRun_av_getLsbD_eight hm a b k), ih,
      modByMonic_mul_modByMonic (monic_polyOf_modulus hm), mul_assoc, ← pow_succ]

theorem polyOf_mulRun_acc (hm : m.getLsbD 8 = true) (a b : Byte) (k : Nat) :
    polyOf (mulRun m (mulStart a b) k).acc =
      ∑ j ∈ Finset.range k, if b.getLsbD j then (polyOf a * X ^ j) %ₘ polyOf m else 0 := by
  induction k with
  | zero => exact polyOf_zero 9
  | succ k ih =>
    rw [mulRun_acc_succ, apply_ite polyOf, polyOf_xor, polyOf_mulRun_av hm, ih, Finset.sum_range_succ, mulStart]
    split <;> simp

theorem polyOf_gfmul (hm : m.getLsbD 8 = true) (a b : Byte) :
    polyOf (gfmul a b m) = (polyOf a * polyOf b) %ₘ polyOf m := by
  have hacc := getLsbD_of_getLsbD_eight (mulRun_acc_getLsbD_eight hm a b 8)
  calc polyOf (gfmul a b m)
      = ∑ j ∈ Finset.range 8, if b.getLsbD j then (polyOf a * X ^ j) %ₘ polyOf m else 0 :=
        (polyOf_setWidth hacc).trans (polyOf_mulRun_acc hm a b 8)
    _ = modByMonicHom (polyOf m) (∑ j ∈ Finset.range 8, polyOf a * if b.getLsbD j then X ^ j else 0) := by
        rw [map_sum]
        refine Finset.sum_congr rfl fun j _ => ?_
        split <;> simp
    _ = (polyOf a * polyOf b) %ₘ polyOf m := by rw [← Finset.mul_sum]; rfl

/-- With bit 8 of the modulus set, which changes nothing, every product is a remainder. -/
theorem polyOf_gfmul_or_bit8 (a b : Byte) (m : Modulus) :
    polyOf (gfmul a b m) = (polyOf a * polyOf b) %ₘ polyOf (0x100 ||| m) := by
  rw [← polyOf_gfmul (by simp), gfmul_congr_modulus (setWidth_or_bit8 m)]

theorem gfmul_comm (a b : Byte) (m : Modulus) : gfmul a b m = gfmul b a m :=
  polyOf_injective 8 (by rw [polyOf_gfmul_or_bit8, polyOf_gfmul_or_bit8, mul_comm])

theorem gfmul_xor (a b c : Byte) (m : Modulus) : gfmul a (b ^^^ c) m = gfmul a b m ^^^ gfmul a c m :=
  polyOf_injective 8 (by simp only [polyOf_xor, polyOf_gfmul_or_bit8, mul_add, add_modByMonic])

theorem gfmul_assoc (hm : m.getLsbD 8 = true) (a b c : Byte) :
    gfmul (gfmul a b m) c m = gfmul a (gfmul b c m) m := by
  have hmod := modByMonic_mul_modByMonic (monic_polyOf_modulus hm)
  apply polyOf_injective 8
  rw [gfmul_comm a (gfmul b c m), polyOf_gfmul hm, polyOf_gfmul hm, polyOf_gfmul hm, polyOf_gfmul hm, hmod, hmod,
    mul_rotate]

theorem gfmul_zero (x : Byte) (m : Modulus) : gfmul x 0 m = 0 :=
  polyOf_injective 8 (by rw [polyOf_gfmul_or_bit8]; simp)

theorem gfmul_one (x : Byte) (m : Modulus) : gfmul x 1 m = x :=
  polyOf_injective 8 (by
    rw [polyOf_gfmul_or_bit8, polyOf_one, mul_one, polyOf_modByMonic (by simp) x.getLsbD_of_ge])

end Sys2Proof.Machine
end

section
/-! The multiplier's laws as the obligations state them (spec/41_field_multiplier.md R94 to R96). -/

namespace Sys2Proof.Machine

/-- Settles O19: a product by 0 or 1 is the remainder of 0 or of the other operand. -/
theorem multiplicationByZeroAndOne : Obligations.MultiplicationByZeroAndOne :=
  fun x m => ⟨gfmul_zero x m, (gfmul_comm 0 x m).trans (gfmul_zero x m), gfmul_one x m,
    (gfmul_comm 1 x m).trans (gfmul_one x m)⟩

/-- Settles O20: the product of polynomials is commutative. -/
theorem multiplicationIsCommutative : Obligations.MultiplicationIsCommutative := gfmul_comm

/-- Settles O21: each register stands for its remainder; the laws are those of polynomials modulo the modulus. -/
theorem productIsPolynomialRemainder : Obligations.ProductIsPolynomialRemainder :=
  ⟨fun a b _ hm => ⟨polyOf_gfmul hm a b, fun k _ => ⟨polyOf_mulRun_av hm a b k, polyOf_mulRun_acc hm a b k⟩⟩,
    fun a b c _ hm => gfmul_assoc hm a b c, gfmul_xor⟩

end Sys2Proof.Machine
end

section
/-! The inverse search (spec/42_inverse_finder.md R105): what it returns, and the GFINV command (R108). -/

namespace Sys2Proof.Machine

/-- In a list ordered by an asymmetric `R`, no hit precedes the one at which the search stops. -/
theorem not_rel_of_find?_eq_some {α : Type} {R : α → α → Prop} {p : α → Bool} {l : List α} {i j : α}
    (hasymm : ∀ a b, R a b → ¬ R b a) (hl : l.Pairwise R) (hfind : l.find? p = some i) (hj : j ∈ l)
    (hpj : p j = true) : ¬ R j i := by
  obtain ⟨-, before, after, rfl, hbefore⟩ := List.find?_eq_some_iff_append.mp hfind
  obtain ⟨-, hafter, -⟩ := List.pairwise_append.mp hl
  obtain hj | hj := List.mem_append.mp hj
  · exact absurd hpj (by simpa using hbefore j hj)
  · obtain rfl | hj := List.mem_cons.mp hj
    · exact fun h => hasymm _ _ h h
    · exact hasymm _ _ ((List.pairwise_cons.mp hafter).1 j hj)

theorem ne_zero_of_gfmul_eq_one {x y : Byte} {m : Modulus} (h : gfmul x y m = 1) : y ≠ 0 := by
  rintro rfl
  exact absurd ((gfmul_zero x m).symm.trans h) (by decide)

theorem findInverse_eq_none {x : Byte} {m : Modulus} :
    findInverse x m = none ↔ ∀ y : Byte, y ≠ 0 → gfmul x y m ≠ 1 := by
  simp [findInverse]

theorem findInverse_eq_some {x y : Byte} {m : Modulus} :
    findInverse x m = some y ↔
      gfmul x y m = 1 ∧ ∀ z : Byte, z ≠ 0 → z.toNat < y.toNat → gfmul x z m ≠ 1 := by
  constructor
  · intro hfind
    have hhit : (gfmul x y m == 1) = true := List.find?_some (p := fun y => gfmul x y m == 1) hfind
    refine ⟨beq_iff_eq.mp hhit, fun z hz hlt hz' => ?_⟩
    exact not_rel_of_find?_eq_some (fun _ _ => Nat.lt_asymm) pairwise_candidates hfind (mem_candidates.mpr hz)
      (beq_iff_eq.mpr hz') hlt
  · rintro ⟨hy, hfirst⟩
    refine find?_eq_some_of_pairwise pairwise_candidates (mem_candidates.mpr (ne_zero_of_gfmul_eq_one hy))
      (beq_iff_eq.mpr hy) fun z hz hlt => ?_
    have hhit := beq_iff_eq.mp hz
    exact hfirst z (ne_zero_of_gfmul_eq_one hhit) hlt hhit

/-- The sentinel 0 is no candidate, so a nonzero value is one that the search found. -/
theorem gfinv_eq_iff_findInverse {x y : Byte} {m : Modulus} (hy : y ≠ 0) :
    gfinv x m = y ↔ findInverse x m = some y := by
  unfold gfinv
  cases findInverse x m with
  | none => simpa using hy.symm
  | some z => simp

theorem gfinv_eq_zero {x : Byte} {m : Modulus} : gfinv x m = 0 ↔ ∀ y : Byte, y ≠ 0 → gfmul x y m ≠ 1 := by
  rw [← findInverse_eq_none, gfinv]
  cases hfind : findInverse x m with
  | none => simp
  | some z => simpa using ne_zero_of_gfmul_eq_one (findInverse_eq_some.mp hfind).1

/-- Settles O24: the search runs over every nonzero byte in ascending order. -/
theorem inverseIsFirstHit : Obligations.InverseIsFirstHit :=
  fun _ _ => ⟨fun _ hy => (gfinv_eq_iff_findInverse hy).trans findInverse_eq_some, gfinv_eq_zero⟩

theorem lacksInverse_eq_decide (x : Byte) (m : Modulus) : lacksInverse x m = decide (x ≠ 0 ∧ gfinv x m = 0) := by
  rw [Bool.eq_iff_iff]
  simp [lacksInverse]

theorem State.warnIf_eq_ite_status (s : State) (c : Bool) (f : Flag) :
    s.warnIf c f = { s with status := if c then setFlagIn s.status f else s.status } := by cases c <;> rfl

/-- Settles O23: the words are those of GFINV's row; the command is a write of `R`, and the warning reaches `STATUS`
alone. -/
theorem gfinvWritesInverseAndWarns : Obligations.GfinvWritesInverseAndWarns := by
  refine ⟨fun w hw => decode_of_row_holds (i := .gfinv 0 0) (OpcodeRow.holds_iff.mpr hw), fun m x s => ?_⟩
  rw [exec_gfinv_next, State.warnIf_eq_ite_status, lacksInverse_eq_decide]
  simp only [decide_eq_true_iff]
  rfl

/-- Settles O25: a product by 0 is never 1, and 1 is the first candidate and its own inverse. -/
theorem inverseOfZeroAndOne : Obligations.InverseOfZeroAndOne := by
  intro m
  have hzero : gfinv 0 m = 0 := gfinv_eq_zero.mpr fun y _ => by
    rw [gfmul_comm, gfmul_zero]
    decide
  have hone : gfinv 1 m = 1 := by
    refine (gfinv_eq_iff_findInverse (by decide)).mpr (findInverse_eq_some.mpr ⟨gfmul_one 1 m, fun z hz hlt => ?_⟩)
    exact absurd (BitVec.eq_of_toNat_eq (Nat.lt_one_iff.mp hlt)) hz
  exact ⟨hzero, hone, rfl, by rw [lacksInverse, hone]; rfl⟩

end Sys2Proof.Machine
end

section
/-! Inverses: true under any modulus, and unique; under a valid modulus a permutation of 1 to 255
(spec/42_inverse_finder.md R109). -/

namespace Sys2Proof.Machine

variable {m : Modulus} {x y z : Byte}

/-- What the search returns, if not the sentinel, is an inverse. -/
theorem gfmul_gfinv (h : gfinv x m ≠ 0) : gfmul x (gfinv x m) m = 1 :=
  (findInverse_eq_some.mp ((gfinv_eq_iff_findInverse h).mp rfl)).1

theorem gfinv_ne_zero_of_gfmul_eq_one (h : gfmul x y m = 1) : gfinv x m ≠ 0 :=
  fun h0 => gfinv_eq_zero.mp h0 y (ne_zero_of_gfmul_eq_one h) h

/-- The product of the three bytes, bracketed either way. -/
theorem inverse_unique (hm : m.getLsbD 8 = true) (hy : gfmul x y m = 1) (hz : gfmul x z m = 1) : y = z := by
  calc y = gfmul y (gfmul x z m) m := by rw [hz, gfmul_one]
    _ = gfmul (gfmul x y m) z m := by rw [← gfmul_assoc hm, gfmul_comm y x]
    _ = z := by rw [hy, gfmul_comm, gfmul_one]

theorem gfinv_eq_of_gfmul_eq_one (hm : m.getLsbD 8 = true) (h : gfmul x y m = 1) : gfinv x m = y :=
  inverse_unique hm (gfmul_gfinv (gfinv_ne_zero_of_gfmul_eq_one h)) h

theorem gfinv_ne_zero_of_validModulus (hm : ValidModulus m) (hx : x ≠ 0) : gfinv x m ≠ 0 := by
  obtain ⟨-, hinv⟩ := hm
  obtain ⟨y, hy⟩ := hinv x hx
  exact gfinv_ne_zero_of_gfmul_eq_one hy

theorem gfinv_gfinv (hm : m.getLsbD 8 = true) (h : gfinv x m ≠ 0) : gfinv (gfinv x m) m = x :=
  gfinv_eq_of_gfmul_eq_one hm ((gfmul_comm _ _ m).trans (gfmul_gfinv h))

/-- A permutation, since inversion maps the nonzero bytes to nonzero bytes and undoes itself. -/
theorem bijOn_gfinv (hm : ValidModulus m) : Set.BijOn (fun x : Byte => gfinv x m) {x | x ≠ 0} {x | x ≠ 0} := by
  have hmaps : Set.MapsTo (fun x : Byte => gfinv x m) {x | x ≠ 0} {x | x ≠ 0} :=
    fun _ hx => gfinv_ne_zero_of_validModulus hm hx
  have hback : Set.LeftInvOn (fun x : Byte => gfinv x m) (fun x : Byte => gfinv x m) {x | x ≠ 0} :=
    fun _ hx => gfinv_gfinv hm.1 (hmaps hx)
  exact Set.InvOn.bijOn ⟨hback, hback⟩ hmaps hmaps

end Sys2Proof.Machine
end

section
/-! The laws of inverses as the obligation states them (spec/42_inverse_finder.md R109). -/

namespace Sys2Proof.Machine

/-- Settles O26: under a valid modulus the search never ends with the sentinel, and every other law rests on the
uniqueness of inverses. -/
theorem inverseLaws : Obligations.InverseLaws := by
  refine ⟨fun m hm x hx => ?_, fun m => bijOn_gfinv, fun m x => gfmul_gfinv, fun m hm x y z => inverse_unique hm⟩
  have hne := gfinv_ne_zero_of_validModulus hm hx
  exact ⟨gfmul_gfinv hne, fun y hy => (gfinv_eq_of_gfmul_eq_one hm.1 hy).symm, gfinv_gfinv hm.1 hne⟩

end Sys2Proof.Machine
end

section
/-! The transform `lin` (spec/43_sbox_generator.md R115, R125): its bits, its linearity, and that it is a bijection. -/

namespace Sys2Proof.Machine

theorem getLsbD_lin (v : Byte) {j : Nat} (hj : j < 8) :
    (lin v).getLsbD j =
      (v.getLsbD j ^^ v.getLsbD ((j + 7) % 8) ^^ v.getLsbD ((j + 6) % 8) ^^ v.getLsbD ((j + 5) % 8) ^^
        v.getLsbD ((j + 4) % 8)) := by
  simp only [lin, BitVec.getLsbD_xor, getLsbD_rotl8 v _ hj, shift1, shift2, shift3, shift4, Nat.reduceSub]

theorem lin_zero : lin 0x00 = 0x00 := by
  simp only [lin, rotl8_zero, BitVec.xor_self]
  rfl

/-- Settles O29: rotating by `s` brings bit `j - s` to place `j`. -/
theorem linBitByBit : Obligations.LinBitByBit :=
  fun v => ⟨rfl, fun _ hj => getLsbD_lin v hj, lin_zero⟩

theorem lin_xor (u v : Byte) : lin (u ^^^ v) = lin u ^^^ lin v := by
  simp only [lin, rotl8_xor]
  ac_rfl

/-- By linearity this is all that R125's list of 256 distinct values has to say. -/
theorem lin_ne_zero : ∀ v : Byte, v ≠ 0 → lin v ≠ 0 := by decide +kernel

/-- A linear map of a finite space to itself with no kernel but 0. -/
theorem lin_bijective : Function.Bijective lin := by
  refine Finite.injective_iff_bijective.mp fun u v huv => ?_
  by_contra hne
  refine lin_ne_zero (u ^^^ v) (mt BitVec.xor_eq_zero_iff.mp hne) ?_
  rw [lin_xor, huv]
  exact BitVec.xor_self

theorem xor_bijective (c : Byte) : Function.Bijective fun v => v ^^^ c :=
  Function.Involutive.bijective fun v => by rw [BitVec.xor_assoc, BitVec.xor_self, BitVec.xor_zero]

theorem affine_bijective (c : Byte) : Function.Bijective fun v => affine v c :=
  (xor_bijective c).comp lin_bijective

/-- Settles O30: the rotations are linear, no nonzero byte is mapped to 0, and the XOR with `c` undoes itself. -/
theorem linIsLinearBijection : Obligations.LinIsLinearBijection :=
  ⟨lin_xor, lin_zero, lin_bijective, affine_bijective, by decide⟩

end Sys2Proof.Machine
end

section
/-! AFFINE, LDS and LDI (spec/43_sbox_generator.md R117, R123, R124), and the entries of the generator's tables (R119). -/

namespace Sys2Proof.Machine

theorem entry_sbox_gen (m : Modulus) (c i : Byte) : (gen m c).entry .sbox i = some (sboxEntry m c i) := by
  simp [TablePair.entry, gen_sbox]

theorem gfinv_zero (m : Modulus) : gfinv 0 m = 0 := (inverseOfZeroAndOne m).1

theorem gfinv_one (m : Modulus) : gfinv 1 m = 1 := (inverseOfZeroAndOne m).2.1

/-- Settles O28: the words are those of AFFINE's row, and the two commands apply the two functions of an S-box entry. -/
theorem affineWritesTransform : Obligations.AffineWritesTransform :=
  ⟨fun _ hw => decode_of_row_holds (i := .affine 0 0) (OpcodeRow.holds_iff.mpr hw),
    fun _ _ _ => exec_affine_next.mpr rfl,
    fun m c i _ => ⟨_, _, exec_gfinv_next.mpr rfl, exec_affine_next.mpr rfl, entry_sbox_gen m c i⟩⟩

/-- Settles O32: 0 and 1 are their own inverses under every modulus. -/
theorem sboxEntryIsAffineOfInverse : Obligations.SboxEntryIsAffineOfInverse := by
  intro m c
  have hzero : sboxEntry m c 0 = c := by
    rw [sboxEntry, gfinv_zero, affine, lin_zero]
    exact BitVec.zero_xor
  have hone : sboxEntry m c 1 = 0x1F ^^^ c := by
    rw [sboxEntry, gfinv_one, affine]
    rfl
  exact ⟨entry_sbox_gen m c, (entry_sbox_gen m c 0).trans (congrArg some hzero),
    (entry_sbox_gen m c 1).trans (congrArg some hone)⟩

/-- Settles O37: the words are those of the two rows, and the two outcomes of a load are the two of `loadFrom`. -/
theorem loadsReadOrReject : Obligations.LoadsReadOrReject :=
  ⟨fun _ hw => decode_of_row_holds (i := .lds 0) (OpcodeRow.holds_iff.mpr hw),
    fun _ hw => decode_of_row_holds (i := .ldi 0) (OpcodeRow.holds_iff.mpr hw),
    fun _ _ htv => ⟨exec_lds_next.mpr (.inr ⟨htv, rfl⟩), exec_ldi_next.mpr (.inr ⟨htv, rfl⟩)⟩,
    fun _ v _ htv hread => exec_lds_next.mpr (.inl ⟨htv, v, hread, rfl⟩),
    fun _ v _ htv hread => exec_ldi_next.mpr (.inl ⟨htv, v, hread, rfl⟩)⟩

end Sys2Proof.Machine
end

section
/-! What SBOXGEN leaves (spec/43_sbox_generator.md R120): the tables of `gen`, and its two warnings. -/

namespace Sys2Proof.Machine

/-- Over memories in canonical form, such as the reset state's, the tables are equal data. -/
theorem entry_gen (m : Modulus) (c : Byte) (tab : Table) (k : Byte) :
    (gen m c).entry tab k = (sboxgenLoop m c State.reset).memRead tab k := by
  obtain ⟨hsbox, hisbox⟩ := State.reset_tables_wf
  obtain ⟨hs, hi⟩ := sboxgenLoop_tables_eq_gen m c hsbox hisbox
  cases tab <;> simp [TablePair.entry, State.memRead, hs, hi]

/-- From any state: what a cell holds after the loops does not depend on the state before. -/
theorem memRead_sboxgenLoop (m : Modulus) (c : Byte) (s : State) (tab : Table) (k : Byte) :
    (sboxgenLoop m c s).memRead tab k = (gen m c).entry tab k := by
  rw [entry_gen]
  cases tab with
  | sbox => rw [memRead_sbox_sboxgenLoop, memRead_sbox_sboxgenLoop]
  | isbox => rw [memRead_isbox_sboxgenLoop_eq_find, memRead_isbox_sboxgenLoop_eq_find]

theorem noinv_sboxgenLoop (m : Modulus) (c : Byte) (s : State) :
    (sboxgenLoop m c s).flag .noinv = true ↔ s.flag .noinv = true ∨ ∃ i : Byte, i ≠ 0 ∧ gfinv i m = 0 := by
  simp [flag_sboxgenLoop, lacksInverse_eq_decide]

theorem coll_sboxgenLoop (m : Modulus) (c : Byte) (s : State) :
    (sboxgenLoop m c s).flag .coll = true ↔ s.flag .coll = true ∨ ¬ Function.Injective (sboxEntry m c) := by
  simp [flag_sboxgenLoop, nodup_map_allBytes]

theorem flag_sboxgenLoop_other (m : Modulus) (c : Byte) (s : State) {f : Flag} (hnoinv : .noinv ≠ f)
    (hcoll : .coll ≠ f) : (sboxgenLoop m c s).flag f = s.flag f := by
  rw [flag_sboxgenLoop, beq_false_of_ne hnoinv, beq_false_of_ne hcoll, Bool.and_false, Bool.and_false, Bool.or_false,
    Bool.or_false]

theorem not_injective_sboxEntry {m : Modulus} {c : Byte} :
    ¬ Function.Injective (sboxEntry m c) ↔ ∃ i j : Byte, i ≠ j ∧ affine (gfinv i m) c = affine (gfinv j m) c := by
  simp only [Function.not_injective_iff, sboxEntry, and_comm]

/-- SBOXGEN's last two writes touch no flag but `TV`. -/
theorem State.flag_setFlag_tv_recordParams (s : State) (m : Modulus) (c : Byte) {f : Flag} (hf : .tv ≠ f) :
    ((s.recordParams m c).setFlag .tv).flag f = s.flag f := by
  simp [State.flag_setFlag, hf]

/-- Settles O31: the loops leave the tables and the warnings, the last two writes the records and `TV`. -/
theorem sboxgenFillsBothTables : Obligations.SboxgenFillsBothTables := by
  refine ⟨fun w hw => decode_of_row_holds (i := .sboxgen 0 0) (OpcodeRow.holds_iff.mpr hw), fun m c s =>
    ⟨_, exec_sboxgen_next.mpr rfl, fun tab k => ?_, sboxgenLoop_tables_eq_gen m c, rfl, rfl,
      State.flag_setFlag_same _ _, ?_, ?_, ?_, ?_, ?_, sboxgenLoop_r m c s, sboxgenLoop_inputs m c s⟩⟩
  case refine_1 => rw [State.memRead_setFlag, State.memRead_recordParams, memRead_sboxgenLoop]
  all_goals rw [State.flag_setFlag_tv_recordParams _ m c (by decide)]
  case refine_2 => exact noinv_sboxgenLoop m c s
  case refine_3 => rw [coll_sboxgenLoop, not_injective_sboxEntry]
  all_goals exact flag_sboxgenLoop_other m c s (by decide) (by decide)

end Sys2Proof.Machine
end

section
/-! Every polynomial over GF(2) of degree below `n` is that of `n` bits, and its degree is the place of the highest 1. -/

namespace Sys2Proof.Machine

open Polynomial

theorem exists_polyOf_eq {n : Nat} {p : (ZMod 2)[X]} (hp : p.degree < n) : ∃ v : BitVec n, polyOf v = p := by
  refine ⟨BitVec.ofFnLE fun k => decide (p.coeff k = 1), ?_⟩
  ext k
  rw [coeff_polyOf, BitVec.getLsbD_ofFnLE]
  by_cases hk : k < n
  · have hbit : ∀ b : ZMod 2, (if b = 1 then 1 else 0) = b := by decide
    simpa [hk] using hbit (p.coeff k)
  · simp [hk, (degree_lt_iff_coeff_zero p n).mp hp k (Nat.le_of_not_lt hk)]

section
variable {n : Nat} {v : BitVec n}

theorem getLsbD_log2 (hv : v ≠ 0#n) : v.getLsbD v.toNat.log2 = true := by
  rw [BitVec.getLsbD]
  exact Nat.testBit_log2 (BitVec.toNat_pos_of_ne_zero hv).ne'

theorem getLsbD_of_log2_lt {j : Nat} (hj : v.toNat.log2 < j) : v.getLsbD j = false :=
  Nat.testBit_lt_two_pow (Nat.lt_log2_self.trans_le (Nat.pow_le_pow_right (by decide) hj))

theorem degree_polyOf (hv : v ≠ 0#n) : (polyOf v).degree = v.toNat.log2 := by
  refine degree_eq_of_le_of_coeff_ne_zero (Order.le_of_lt_succ (degree_polyOf_lt fun j hj => ?_)) ?_
  · exact getLsbD_of_log2_lt hj
  · simp [coeff_polyOf, getLsbD_log2 hv]

theorem monic_polyOf (hv : v ≠ 0#n) : (polyOf v).Monic :=
  monic_of_degree_le _ (degree_polyOf hv).le (by simp [coeff_polyOf, getLsbD_log2 hv])

end

end Sys2Proof.Machine
end

section
/-! Long division of a modulus by a byte, as polynomials over GF(2): it decides whether the byte divides the modulus. -/

namespace Sys2Proof.Machine

open Polynomial

/-- The step of the long division that clears the place `k` above the divisor's highest 1. -/
def divStep (a : Byte) (k : Nat) (v : Modulus) : Modulus :=
  if v.getLsbD (a.toNat.log2 + k) then v ^^^ (a.setWidth 9 <<< k) else v

/-- The steps for the places below `k`, the highest first. -/
def remainderFrom (a : Byte) : Nat → Modulus → Modulus
  | 0, v => v
  | k + 1, v => remainderFrom a k (divStep a k v)

/-- The remainder of a modulus on division by a byte. -/
def remainder (m : Modulus) (a : Byte) : Modulus := remainderFrom a 9 m

theorem polyOf_setWidth_shiftLeft {a : Byte} {k : Nat} (hk : a.toNat.log2 + k < 9) :
    polyOf (a.setWidth 9 <<< k) = polyOf a * X ^ k := by
  ext j
  rw [coeff_mul_X_pow', coeff_polyOf, coeff_polyOf, BitVec.getLsbD_shiftLeft, BitVec.getLsbD_setWidth]
  by_cases hj : a.toNat.log2 + k < j
  · have hhigh : a.getLsbD (j - k) = false := getLsbD_of_log2_lt (by omega)
    simp [hhigh]
  · have hj9 : j < 9 := by omega
    have hjk : j - k < 9 := by omega
    by_cases hle : k ≤ j
    · simp [hj9, hjk, hle]
    · simp [hle]

/-- A step takes away a multiple of the divisor. -/
theorem polyOf_dvd_divStep (a : Byte) (k : Nat) (v : Modulus) :
    polyOf a ∣ polyOf (divStep a k v) ↔ polyOf a ∣ polyOf v := by
  unfold divStep
  split
  · next hbit =>
    rw [polyOf_xor, polyOf_setWidth_shiftLeft (BitVec.lt_of_getLsbD hbit), dvd_add_left (dvd_mul_right _ _)]
  · rfl

/-- After the step for the place `k` nothing is left at that place above the divisor's highest 1, or higher. -/
theorem getLsbD_divStep {a : Byte} (ha : a ≠ 0) {k : Nat} {v : Modulus}
    (hv : ∀ j, a.toNat.log2 + (k + 1) ≤ j → v.getLsbD j = false) {j : Nat} (hj : a.toNat.log2 + k ≤ j) :
    (divStep a k v).getLsbD j = false := by
  unfold divStep
  obtain rfl | hlt := Nat.eq_or_lt_of_le hj
  · split
    · next hbit => simp [hbit, BitVec.lt_of_getLsbD hbit, getLsbD_log2 ha]
    · next hbit => simpa using hbit
  · have hhigh : a.getLsbD (j - k) = false := getLsbD_of_log2_lt (by omega)
    split <;> simp [hv j hlt, hhigh]

/-- The divisor divides what is left exactly when it divided the dividend. -/
theorem polyOf_dvd_remainderFrom (a : Byte) (k : Nat) (v : Modulus) :
    polyOf a ∣ polyOf (remainderFrom a k v) ↔ polyOf a ∣ polyOf v := by
  induction k generalizing v with
  | zero => rfl
  | succ k ih => rw [remainderFrom, ih, polyOf_dvd_divStep]

theorem getLsbD_remainderFrom {a : Byte} (ha : a ≠ 0) {k : Nat} {v : Modulus}
    (hv : ∀ j, a.toNat.log2 + k ≤ j → v.getLsbD j = false) {j : Nat} (hj : a.toNat.log2 ≤ j) :
    (remainderFrom a k v).getLsbD j = false := by
  induction k generalizing v with
  | zero => exact hv j hj
  | succ k ih => exact ih fun i hi => getLsbD_divStep ha hv hi

/-- The remainder is of lower degree than the divisor, which can then divide it only if it is 0. -/
theorem polyOf_dvd_polyOf_iff {a : Byte} (ha : a ≠ 0) (m : Modulus) : polyOf a ∣ polyOf m ↔ remainder m a = 0 := by
  have hdvd : polyOf a ∣ polyOf (remainder m a) ↔ polyOf a ∣ polyOf m := polyOf_dvd_remainderFrom a 9 m
  rw [← hdvd]
  constructor
  · intro h
    by_contra hne
    refine (monic_polyOf ha).not_dvd_of_degree_lt (monic_polyOf hne).ne_zero ?_ h
    rw [degree_polyOf ha]
    exact degree_polyOf_lt fun j hj => getLsbD_remainderFrom ha (fun i hi => m.getLsbD_of_ge i (by omega)) hj
  · intro hzero
    simp [hzero]

end Sys2Proof.Machine
end

section
/-! Which moduli are valid (spec/43_sbox_generator.md R127): a byte has an inverse exactly when it is coprime to the
modulus, so that every nonzero byte has one exactly when no byte of degree 1 to 4 divides the modulus. -/

namespace Sys2Proof.Machine

open Polynomial

variable {m : Modulus}

/-- Bézout's identity, its factor reduced to a byte. -/
theorem gfinv_ne_zero_iff_isCoprime (hm : m.getLsbD 8 = true) {x : Byte} :
    gfinv x m ≠ 0 ↔ IsCoprime (polyOf x) (polyOf m) := by
  have hmonic := monic_polyOf_modulus hm
  have hone : (1 : (ZMod 2)[X]) %ₘ polyOf m = 1 := by
    rw [← polyOf_one, polyOf_modByMonic hm (BitVec.getLsbD_of_ge _)]
  constructor
  · intro h
    have hprod : polyOf x * polyOf (gfinv x m) %ₘ polyOf m = 1 := by
      rw [← polyOf_gfmul hm, gfmul_gfinv h, polyOf_one]
    refine ⟨polyOf (gfinv x m), -(polyOf x * polyOf (gfinv x m) /ₘ polyOf m), ?_⟩
    have hdiv := modByMonic_add_div (polyOf x * polyOf (gfinv x m)) (polyOf m)
    rw [hprod] at hdiv
    linear_combination -hdiv
  · rintro ⟨u, w, huw⟩
    obtain ⟨y, hy⟩ := exists_polyOf_eq (n := 8) (degree_polyOf_modulus hm ▸ degree_modByMonic_lt u hmonic)
    refine gfinv_ne_zero_of_gfmul_eq_one (y := y) (polyOf_injective 8 ?_)
    rw [polyOf_gfmul hm, hy, mul_comm, modByMonic_mul_modByMonic hmonic, polyOf_one, ← hone]
    exact modByMonic_eq_of_dvd_sub hmonic ⟨-w, by linear_combination huw⟩

/-- The bytes of degree 1 to 4: a modulus that has any proper factor has one of these. -/
def smallFactors : List Byte := bytesFromTo 2 31

theorem mem_smallFactors {a : Byte} : a ∈ smallFactors ↔ a ≠ 0 ∧ 0 < a.toNat.log2 ∧ a.toNat.log2 ≤ 4 := by
  rw [smallFactors, mem_bytesFromTo (by decide)]
  by_cases ha : a = 0
  · simp [ha]
  · have hne : a.toNat ≠ 0 := (BitVec.toNat_pos_of_ne_zero ha).ne'
    have hpos : 0 < a.toNat.log2 ↔ 2 ≤ a.toNat := Nat.le_log2 hne
    have hle : a.toNat.log2 ≤ 4 ↔ a.toNat ≤ 31 :=
      Nat.lt_succ_iff.symm.trans ((Nat.log2_lt hne).trans Nat.lt_succ_iff)
    rw [hpos, hle, and_iff_right ha]

/-- A polynomial of degree 8 with a proper factor has one of degree at most 4. -/
theorem irreducible_polyOf (hm : m.getLsbD 8 = true) (h : ∀ a ∈ smallFactors, ¬ polyOf a ∣ polyOf m) :
    Irreducible (polyOf m) := by
  have hmonic := monic_polyOf_modulus hm
  have hdeg : (polyOf m).natDegree = 8 := natDegree_eq_of_degree_eq_some (degree_polyOf_modulus hm)
  refine (hmonic.irreducible_iff_lt_natDegree_lt ?_).mpr fun q hq hqdeg => ?_
  · intro h1
    simp [h1] at hdeg
  · rw [hdeg, Finset.mem_Ioc] at hqdeg
    obtain ⟨a, rfl⟩ := exists_polyOf_eq (n := 8) (p := q)
      (degree_le_natDegree.trans_lt (by exact_mod_cast hqdeg.2.trans_lt (by decide)))
    have ha : a ≠ 0 := by
      rintro rfl
      simp at hqdeg
    rw [natDegree_eq_of_degree_eq_some (degree_polyOf ha)] at hqdeg
    exact h a (mem_smallFactors.mpr ⟨ha, hqdeg⟩)

/-- A factor of the modulus has no inverse; under an irreducible modulus every nonzero byte is coprime to it. -/
theorem gfinv_ne_zero_iff_no_smallFactor (hm : m.getLsbD 8 = true) :
    (∀ x : Byte, x ≠ 0 → gfinv x m ≠ 0) ↔ ∀ a ∈ smallFactors, ¬ polyOf a ∣ polyOf m := by
  constructor
  · intro h a ha hdvd
    obtain ⟨hne, hpos, -⟩ := mem_smallFactors.mp ha
    have hunit := ((gfinv_ne_zero_iff_isCoprime hm).mp (h a hne)).isUnit_of_dvd hdvd
    have hdeg := natDegree_eq_zero_of_isUnit hunit
    rw [natDegree_eq_of_degree_eq_some (degree_polyOf hne)] at hdeg
    omega
  · intro h x hx
    rw [gfinv_ne_zero_iff_isCoprime hm, isCoprime_comm, (irreducible_polyOf hm h).coprime_iff_not_dvd]
    refine (monic_polyOf_modulus hm).not_dvd_of_degree_lt (monic_polyOf hx).ne_zero ?_
    exact degree_polyOf_modulus hm ▸ degree_polyOf_lt x.getLsbD_of_ge

theorem getLsbD_0x100 (j : Nat) : (0x100 : Modulus).getLsbD j = decide (j = 8) := by
  rw [show (0x100 : Modulus) = BitVec.twoPow 9 8 from rfl, BitVec.getLsbD_twoPow]
  simp [eq_comm]

/-- A modulus with bit 8 set is known by its low eight bits. -/
theorem or_bit8_eq {p : Modulus} (h : p.setWidth 8 = m.setWidth 8) (hm : m.getLsbD 8 = true) : 0x100 ||| p = m := by
  refine BitVec.eq_of_getLsbD_eq fun j hj => ?_
  rw [BitVec.getLsbD_or, getLsbD_0x100]
  obtain rfl | hlt := Nat.eq_or_lt_of_le (Nat.le_of_lt_succ hj)
  · simp [hm]
  · have hbit := congrArg (BitVec.getLsbD · j) h
    simpa [hlt, hlt.ne] using hbit

/-- Each of the 256 moduli with bit 8 set is divided by the bytes of degree 1 to 4. -/
theorem validModuli_by_trial_division :
    (allBytes.all fun p => validModuli.contains (0x100 ||| p.setWidth 9) ==
      smallFactors.all fun a => remainder (0x100 ||| p.setWidth 9) a != 0) = true := by
  decide +kernel

theorem mem_validModuli_iff_no_smallFactor (hm : m.getLsbD 8 = true) :
    m ∈ validModuli ↔ ∀ a ∈ smallFactors, ¬ polyOf a ∣ polyOf m := by
  have h := List.all_eq_true.mp validModuli_by_trial_division (m.setWidth 8) (mem_allBytes _)
  have hp : 0x100 ||| (m.setWidth 8).setWidth 9 = m := or_bit8_eq (BitVec.setWidth_setWidth_of_le _ (by decide)) hm
  rw [hp, beq_iff_eq, Bool.eq_iff_iff, List.contains_iff_mem, List.all_eq_true] at h
  rw [h]
  refine forall₂_congr fun a ha => ?_
  rw [polyOf_dvd_polyOf_iff (mem_smallFactors.mp ha).1, bne_iff_ne]

/-- Bit 8 has no effect on the search, so that the moduli with it set speak for all. -/
theorem gfinv_ne_zero_iff_mem_validModuli (m : Modulus) :
    (∀ x : Byte, x ≠ 0 → gfinv x m ≠ 0) ↔ (0x100 ||| m) ∈ validModuli := by
  have hbit : (0x100 ||| m).getLsbD 8 = true := by simp
  rw [mem_validModuli_iff_no_smallFactor hbit, ← gfinv_ne_zero_iff_no_smallFactor hbit]
  simp only [gfinv_congr_modulus (setWidth_or_bit8 m)]

theorem validModulus_iff (m : Modulus) :
    ValidModulus m ↔ m.getLsbD 8 = true ∧ ∀ x : Byte, x ≠ 0 → gfinv x m ≠ 0 :=
  ⟨fun hm => ⟨hm.1, fun _ => gfinv_ne_zero_of_validModulus hm⟩,
    fun ⟨hbit, h⟩ => ⟨hbit, fun x hx => ⟨_, gfmul_gfinv (h x hx)⟩⟩⟩

theorem getLsbD_eight_of_mem_validModuli : ∀ m ∈ validModuli, m.getLsbD 8 = true := by decide

/-- Settles O27: by trial division the listed values are the irreducible polynomials of degree 8, and those are the
moduli under which every nonzero byte has an inverse. -/
theorem validModuliAreTheListed : Obligations.ValidModuliAreTheListed := by
  refine ⟨rfl, fun m => ?_, gfinv_ne_zero_iff_mem_validModuli⟩
  rw [validModulus_iff, gfinv_ne_zero_iff_mem_validModuli]
  constructor
  · rintro ⟨hbit, hmem⟩
    rwa [or_bit8_eq rfl hbit] at hmem
  · intro hmem
    have hbit := getLsbD_eight_of_mem_validModuli m hmem
    exact ⟨hbit, by rwa [or_bit8_eq rfl hbit]⟩

end Sys2Proof.Machine
end

section
/-! Valid moduli in the generator (spec/43_sbox_generator.md R122, R126): the S-box takes no value twice exactly when
every nonzero byte has an inverse. -/

namespace Sys2Proof.Machine

/-- Without an inverse a byte shares the value 0 with the byte 0; with all of them inversion undoes itself. -/
theorem injective_gfinv_iff (m : Modulus) :
    Function.Injective (gfinv · m) ↔ ∀ x : Byte, x ≠ 0 → gfinv x m ≠ 0 := by
  constructor
  · intro hinj x hx h0
    exact hx (hinj (h0.trans (gfinv_zero m).symm))
  · intro h
    have hinvolutive : Function.Involutive (gfinv · m) := fun x => by
      by_cases hx : x = 0
      · simp only [hx, gfinv_zero]
      · have hbit : (0x100 ||| m).getLsbD 8 = true := by simp
        simp only [← gfinv_congr_modulus (setWidth_or_bit8 m)] at h ⊢
        exact gfinv_gfinv hbit (h x hx)
    exact hinvolutive.injective

theorem injective_sboxEntry_iff (m : Modulus) (c : Byte) :
    Function.Injective (sboxEntry m c) ↔ ∀ x : Byte, x ≠ 0 → gfinv x m ≠ 0 :=
  ((affine_bijective c).injective.of_comp_iff (gfinv · m)).trans (injective_gfinv_iff m)

/-- Settles O34: the entries are then all distinct, so that each one's cell of the inverse table keeps its index. -/
theorem validModulusGivesInversePermutations : Obligations.ValidModulusGivesInversePermutations := by
  intro m c s hm
  have hinj : Function.Injective (sboxEntry m c) := (injective_sboxEntry_iff m c).mpr ((validModulus_iff m).mp hm).2
  have hbij : Function.Bijective (sboxEntry m c) := Finite.injective_iff_bijective.mp hinj
  obtain ⟨inv, hleft, hright⟩ := Function.bijective_iff_has_inverse.mp hbij
  refine ⟨_, exec_sboxgen_next.mpr rfl, sboxEntry m c, inv, fun k => ?_, hbij,
    Function.bijective_iff_has_inverse.mpr ⟨_, hright, hleft⟩, hleft, hright, ?_⟩
  · have hisbox := memRead_isbox_sboxgenLoop hinj s (inv k)
    rw [hright k] at hisbox
    simp only [State.memRead_setFlag, State.memRead_recordParams]
    exact ⟨memRead_sbox_sboxgenLoop m c s k, hisbox⟩
  · rw [State.flag_setFlag_tv_recordParams _ m c (by decide), Bool.eq_iff_iff, coll_sboxgenLoop]
    simp [hinj]

/-- Settles O35: both warnings say that some nonzero byte has no inverse. -/
theorem warningsRiseTogether : Obligations.WarningsRiseTogether := by
  intro m c s hnoinv hcoll
  have hnoinv' : (sboxgenLoop m c s).flag .noinv = true ↔ (0x100 ||| m) ∉ validModuli := by
    rw [noinv_sboxgenLoop, ← gfinv_ne_zero_iff_mem_validModuli]
    simp [hnoinv]
  have hcoll' : (sboxgenLoop m c s).flag .coll = true ↔ (0x100 ||| m) ∉ validModuli := by
    rw [coll_sboxgenLoop, injective_sboxEntry_iff, gfinv_ne_zero_iff_mem_validModuli]
    simp [hcoll]
  refine ⟨_, exec_sboxgen_next.mpr rfl, ?_⟩
  rw [State.flag_setFlag_tv_recordParams _ m c (by decide), State.flag_setFlag_tv_recordParams _ m c (by decide),
    Bool.eq_iff_iff.mpr (hnoinv'.trans hcoll'.symm), and_self, ← Bool.not_eq_true, hcoll', not_not]
  exact ⟨rfl, Iff.rfl⟩

end Sys2Proof.Machine
end

section
/-! NOP and CLRF: one word each, and what each writes (spec/44_system_commands.md R140, R141). -/

namespace Sys2Proof.Machine

/-- NOP reserves every bit below its opcode, so that no other word with `op` 0 is a command (R65, R140). -/
theorem exists_illegal_of_op_zero {w : Word} (hop : w.toNat / 2 ^ 28 = 0) (hw : w ≠ 0) :
    ∃ why, decode w = .illegal why := by
  have hmask : w &&& rowNop.mask = w := BitVec.and_allOnes
  exact reservedEncodingsAreIllegal.1 w rowNop (Instr.row_mem .nop) hop (hmask.trans_ne hw)

/-- Clearing drops every error flag (R141). -/
theorem State.flag_clearErrors_of_mem_errorFlags (s : State) {f : Flag} (hf : f ∈ errorFlags) :
    s.clearErrors.flag f = false := by
  have hne : f ≠ .tv := by
    rintro rfl
    exact absurd hf (by decide)
  simp [State.flag_clearErrors, hne]

/-- Settles O41: NOP has one word and answers the state it was given; CLRF has one word and answers `clearErrors`, which
rewrites `STATUS` alone and keeps `TV` in it. -/
theorem nopAndClrf : Obligations.NopAndClrf :=
  ⟨decode_encode .nop, fun _ => exists_illegal_of_op_zero, fun _ => exec_nop_next.mpr rfl, decode_encode .clrf,
    fun s => ⟨s.clearErrors, exec_clrf_next.mpr rfl, rfl, exec_tv_eq (exec_clrf_next.mpr rfl) (by simp),
      fun _ => s.flag_clearErrors_of_mem_errorFlags⟩⟩

end Sys2Proof.Machine
end

section
/-! What an accepted word or a command can raise, and that a rejection writes nothing else
(spec/60_exceptions.md R150 to R152, R160). -/

namespace Sys2Proof.Machine

/-- Settles O2: the word is accepted and matches no row, so that the step's last kind is the one taken. -/
theorem illegalWordSetsIllAlone : Obligations.IllegalWordSetsIllAlone := by
  intro s p rest hin hrst hvalid hrows
  have hevent : portEvent p = .accept p.cmdWord := portEvent_eq_accept.mpr ⟨hrst, hvalid, rfl⟩
  have htake : s.takeEvent = (.accept p.cmdWord, { s with inputs := rest }) := by
    rw [State.takeEvent_cons hin, hevent]
  obtain ⟨why, hdec⟩ := exists_illegal_of_no_row fun row hrow h => hrows row hrow (OpcodeRow.holds_iff.mp h)
  refine step_next.mpr (.inr (.inr (.inr ⟨p.cmdWord, why, by rw [htake], hdec, ?_⟩)))
  rw [htake]
  rfl

/-- SBOXGEN touches no flag but `TV` and its two warnings (R160). -/
theorem exec_sboxgen_flag_eq {m : Modulus} {c : Byte} {s t : State} {f : Flag} (h : exec (.sboxgen m c) s = .next t)
    (htv : .tv ≠ f) (hf : f ∉ raisableFlags (.sboxgen m c)) : t.flag f = s.flag f := by
  have hnoinv : .noinv ≠ f := fun heq => hf (by simp [raisableFlags, ← heq])
  have hcoll : .coll ≠ f := fun heq => hf (by simp [raisableFlags, ← heq])
  rw [exec_sboxgen_next.mp h, State.flag_setFlag_tv_recordParams _ m c htv, flag_sboxgenLoop_other m c s hnoinv hcoll]

/-- Settles O43: a flag outside the command's own list is cleared by CLRF, set by SBOXGEN if it is `TV`, and otherwise
left as it was. -/
theorem commandsRaiseOnlyTheirFlags : Obligations.CommandsRaiseOnlyTheirFlags := by
  intro i s t f h hs ht
  by_cases hf : f ∈ raisableFlags i
  · exact .inl ⟨ne_of_mem_of_not_mem hf (tv_not_mem_raisableFlags i), hf⟩
  have hchanged : t.flag f ≠ s.flag f := by simp [hs, ht]
  have hclrf : i ≠ .clrf := by
    rintro rfl
    simp [exec_clrf_next.mp h, State.flag_clearErrors, hs] at ht
  by_cases hgen : ∃ m c, i = .sboxgen m c
  · refine .inr ⟨?_, hgen⟩
    obtain ⟨m, c, rfl⟩ := hgen
    by_contra htv
    exact hchanged (exec_sboxgen_flag_eq h (Ne.symm htv) hf)
  · push Not at hgen
    exact absurd (exec_flag_eq h hgen hclrf hf) hchanged

theorem loadFrom_completes_or_rejects {tab : Table} {idx : Byte} {s t : State} (h : loadFrom tab idx s = .next t) :
    (∃ v, t = s.writeR v) ∨ t = s.setFlag .nv := by
  obtain ⟨-, v, -, ht⟩ | ⟨-, ht⟩ := loadFrom_next.mp h
  · exact .inl ⟨v, ht⟩
  · exact .inr ht

/-- A command that can be rejected completes with one write, of `R`, or is rejected with one write, of its flag (R150). -/
theorem exec_completes_or_rejects {i : Instr} {s t : State} {f : Flag} (h : exec i s = .next t)
    (hrej : f ∈ rejectionFlags) (hf : f ∈ raisableFlags i) : (∃ v, t = s.writeR v) ∨ t = s.setFlag f := by
  cases i with
  | nop | gfmul | affine | clrf => simp [raisableFlags] at hf
  | gfinv m x =>
    obtain rfl : f = .noinv := by simpa [raisableFlags] using hf
    simp [rejectionFlags] at hrej
  | sboxgen m c =>
    obtain rfl | rfl : f = .noinv ∨ f = .coll := by simpa [raisableFlags] using hf
    all_goals simp [rejectionFlags] at hrej
  | rotl sh x =>
    obtain rfl : f = .rng := by simpa [raisableFlags] using hf
    obtain ⟨n, -, ht⟩ | ⟨-, ht⟩ := exec_rotl_next.mp h
    · exact .inl ⟨_, ht⟩
    · exact .inr ht
  | lds idx | ldi idx =>
    obtain rfl : f = .nv := by simpa [raisableFlags] using hf
    exact loadFrom_completes_or_rejects h

/-- Settles O44: the flag is one of the command's own (O43), and a command that completes with a write of `R` would have
left it at 0. -/
theorem rejectionWritesOnlyItsFlag : Obligations.RejectionWritesOnlyItsFlag := by
  intro i s t f h hrej hs ht
  obtain ⟨-, hf⟩ | ⟨rfl, -⟩ := commandsRaiseOnlyTheirFlags i s t f h hs ht
  · obtain ⟨v, rfl⟩ | hset := exec_completes_or_rejects h hrej hf
    · simp [hs] at ht
    · exact hset
  · simp [rejectionFlags] at hrej

end Sys2Proof.Machine
end

section
/-! The one stop of the model (log entry 2), and that the invariant excludes it. -/

namespace Sys2Proof.Machine

/-- A load answers a next state or meets a cell without a value. -/
theorem loadFrom_answers_or_stops (tab : Table) (idx : Byte) (s : State) :
    (∃ t, loadFrom tab idx s = .next t) ∨
      (s.flag .tv = true ∧ s.memRead tab idx = none ∧ loadFrom tab idx s = .fault (.cellWithoutValue tab idx)) := by
  cases htv : s.flag .tv with
  | false => exact .inl ⟨_, loadFrom_next.mpr (.inr ⟨htv, rfl⟩)⟩
  | true =>
    cases hread : s.memRead tab idx with
    | some v => exact .inl ⟨_, loadFrom_next.mpr (.inl ⟨htv, v, hread, rfl⟩)⟩
    | none => exact .inr ⟨rfl, rfl, loadFrom_fault.mpr ⟨htv, hread, rfl⟩⟩

theorem exec_rotl_answers (sh : ShiftField) (x : Byte) (s : State) : ∃ t, exec (.rotl sh x) s = .next t := by
  cases hn : shiftCount? sh with
  | some n => exact ⟨_, exec_rotl_next.mpr (.inl ⟨n, hn, rfl⟩)⟩
  | none => exact ⟨_, exec_rotl_next.mpr (.inr ⟨hn, rfl⟩)⟩

theorem exec_answers_or_stops (i : Instr) (s : State) :
    (∃ t, exec i s = .next t) ∨
      ∃ (tab : Table) (idx : Byte), (i = .lds idx ∧ tab = .sbox ∨ i = .ldi idx ∧ tab = .isbox) ∧
        s.flag .tv = true ∧ s.memRead tab idx = none ∧ exec i s = .fault (.cellWithoutValue tab idx) := by
  cases i with
  | nop => exact .inl ⟨_, exec_nop_next.mpr rfl⟩
  | rotl sh x => exact .inl (exec_rotl_answers sh x s)
  | gfmul m a b => exact .inl ⟨_, exec_gfmul_next.mpr rfl⟩
  | gfinv m x => exact .inl ⟨_, exec_gfinv_next.mpr rfl⟩
  | affine c x => exact .inl ⟨_, exec_affine_next.mpr rfl⟩
  | sboxgen m c => exact .inl ⟨_, exec_sboxgen_next.mpr rfl⟩
  | lds idx =>
    exact (loadFrom_answers_or_stops .sbox idx s).imp_right fun hstop => ⟨.sbox, idx, .inl ⟨rfl, rfl⟩, hstop⟩
  | ldi idx =>
    exact (loadFrom_answers_or_stops .isbox idx s).imp_right fun hstop => ⟨.isbox, idx, .inr ⟨rfl, rfl⟩, hstop⟩
  | clrf => exact .inl ⟨_, exec_clrf_next.mpr rfl⟩

/-- Settles O39: under the invariant valid tables have no cell without a value (O38). -/
theorem onlyALoadWithoutValueStops : Obligations.OnlyALoadWithoutValueStops := by
  intro i s
  refine ⟨exec_answers_or_stops i s, fun hs => ?_⟩
  obtain hnext | ⟨tab, idx, -, htv, hnone, -⟩ := exec_answers_or_stops i s
  · exact hnext
  · obtain ⟨v, hv⟩ := validTablesHoldEveryCell s hs htv tab idx
    rw [hnone] at hv
    cases hv

end Sys2Proof.Machine
end

section
/-! No command reads an error flag (spec/60_exceptions.md R150): each operation takes two states that differ in the error
flags alone to two such states. -/

namespace Sys2Proof.Machine

section
variable {s s' : State}

namespace SameButErrorFlags

theorem writeR (h : SameButErrorFlags s s') (v : Byte) : SameButErrorFlags (s.writeR v) (s'.writeR v) := by
  obtain ⟨-, hrest⟩ := h
  exact ⟨rfl, hrest⟩

theorem recordParams (h : SameButErrorFlags s s') (m : Modulus) (c : Byte) :
    SameButErrorFlags (s.recordParams m c) (s'.recordParams m c) := by
  obtain ⟨hr, htv, -, -, htables⟩ := h
  exact ⟨hr, htv, rfl, rfl, htables⟩

theorem withTables (h : SameButErrorFlags s s') (x y : Memory) :
    SameButErrorFlags (s.withTables x y) (s'.withTables x y) := by
  obtain ⟨hr, htv, hgmod, hgconst, -, -, hinputs⟩ := h
  exact ⟨hr, htv, hgmod, hgconst, rfl, rfl, hinputs⟩

theorem setFlag (h : SameButErrorFlags s s') (f : Flag) : SameButErrorFlags (s.setFlag f) (s'.setFlag f) := by
  obtain ⟨hr, htv, hrest⟩ := h
  exact ⟨hr, by rw [State.flag_setFlag, State.flag_setFlag, htv], hrest⟩

theorem clearErrors (h : SameButErrorFlags s s') : SameButErrorFlags s.clearErrors s'.clearErrors := by
  obtain ⟨hr, htv, hrest⟩ := h
  exact ⟨hr, by rw [State.flag_clearErrors, State.flag_clearErrors, htv], hrest⟩

theorem warnIf (h : SameButErrorFlags s s') (b : Bool) (f : Flag) :
    SameButErrorFlags (s.warnIf b f) (s'.warnIf b f) := by
  cases b with
  | false => exact h
  | true => exact h.setFlag f

theorem sboxgenLoop (h : SameButErrorFlags s s') (m : Modulus) (c : Byte) :
    SameButErrorFlags (sboxgenLoop m c s) (sboxgenLoop m c s') := by
  have ⟨_, _, _, _, hsbox, hisbox, _⟩ := h
  rw [sboxgenLoop_eq, sboxgenLoop_eq, hsbox, hisbox]
  exact ((h.warnIf _ _).warnIf _ _).withTables _ _

theorem memRead_eq (h : SameButErrorFlags s s') (tab : Table) (k : Byte) : s.memRead tab k = s'.memRead tab k := by
  obtain ⟨-, -, -, -, hsbox, hisbox, -⟩ := h
  cases tab with
  | sbox => rw [State.memRead, State.memRead, State.table_sbox, State.table_sbox, hsbox]
  | isbox => rw [State.memRead, State.memRead, State.table_isbox, State.table_isbox, hisbox]

end SameButErrorFlags

/-- The second outcome is that of the first but for the error flags of a next state. -/
def OutcomesAgree (o o' : Result) : Prop :=
  (∀ t, o = .next t → ∃ t', o' = .next t' ∧ SameButErrorFlags t t') ∧ ∀ why, o = .fault why → o' = .fault why

theorem outcomesAgree_next {o o' : Result} {t t' : State} (ho : o = .next t) (ho' : o' = .next t')
    (h : SameButErrorFlags t t') : OutcomesAgree o o' := by
  subst ho ho'
  constructor
  · rintro _ ⟨⟩
    exact ⟨t', rfl, h⟩
  · rintro _ ⟨⟩

theorem outcomesAgree_fault {o o' : Result} {why : Fault} (ho : o = .fault why) (ho' : o' = .fault why) :
    OutcomesAgree o o' := by
  subst ho ho'
  exact ⟨nofun, fun _ => id⟩

/-- A load branches on `TV` and on the cell, which the two states share. -/
theorem loadFrom_outcomesAgree (h : SameButErrorFlags s s') (tab : Table) (idx : Byte) :
    OutcomesAgree (loadFrom tab idx s) (loadFrom tab idx s') := by
  have ⟨_, htv, _⟩ := h
  have hread := h.memRead_eq tab idx
  cases htv' : s'.flag .tv with
  | false =>
    exact outcomesAgree_next (loadFrom_next.mpr (.inr ⟨htv.trans htv', rfl⟩)) (loadFrom_next.mpr (.inr ⟨htv', rfl⟩))
      (h.setFlag .nv)
  | true =>
    cases hread' : s'.memRead tab idx with
    | some v =>
      exact outcomesAgree_next (loadFrom_next.mpr (.inl ⟨htv.trans htv', v, hread.trans hread', rfl⟩))
        (loadFrom_next.mpr (.inl ⟨htv', v, hread', rfl⟩)) (h.writeR v)
    | none =>
      exact outcomesAgree_fault (loadFrom_fault.mpr ⟨htv.trans htv', hread.trans hread', rfl⟩)
        (loadFrom_fault.mpr ⟨htv', hread', rfl⟩)

theorem exec_rotl_outcomesAgree (h : SameButErrorFlags s s') (sh : ShiftField) (x : Byte) :
    OutcomesAgree (exec (.rotl sh x) s) (exec (.rotl sh x) s') := by
  cases hn : shiftCount? sh with
  | some n =>
    exact outcomesAgree_next (exec_rotl_next.mpr (.inl ⟨n, hn, rfl⟩)) (exec_rotl_next.mpr (.inl ⟨n, hn, rfl⟩))
      (h.writeR _)
  | none =>
    exact outcomesAgree_next (exec_rotl_next.mpr (.inr ⟨hn, rfl⟩)) (exec_rotl_next.mpr (.inr ⟨hn, rfl⟩))
      (h.setFlag .rng)

end

/-- Settles O47: each command is made of operations that keep the two states alike, and branches on nothing in which they
differ. -/
theorem errorFlagsNeverSteer : Obligations.ErrorFlagsNeverSteer := by
  intro i s s' h
  change OutcomesAgree (exec i s) (exec i s')
  cases i with
  | nop => exact outcomesAgree_next (exec_nop_next.mpr rfl) (exec_nop_next.mpr rfl) h
  | rotl sh x => exact exec_rotl_outcomesAgree h sh x
  | gfmul m a b => exact outcomesAgree_next (exec_gfmul_next.mpr rfl) (exec_gfmul_next.mpr rfl) (h.writeR _)
  | gfinv m x =>
    exact outcomesAgree_next (exec_gfinv_next.mpr rfl) (exec_gfinv_next.mpr rfl) ((h.warnIf _ _).writeR _)
  | affine c x => exact outcomesAgree_next (exec_affine_next.mpr rfl) (exec_affine_next.mpr rfl) (h.writeR _)
  | sboxgen m c =>
    exact outcomesAgree_next (exec_sboxgen_next.mpr rfl) (exec_sboxgen_next.mpr rfl)
      (((h.sboxgenLoop m c).recordParams m c).setFlag .tv)
  | lds idx => exact loadFrom_outcomesAgree h .sbox idx
  | ldi idx => exact loadFrom_outcomesAgree h .isbox idx
  | clrf => exact outcomesAgree_next (exec_clrf_next.mpr rfl) (exec_clrf_next.mpr rfl) h.clearErrors

end Sys2Proof.Machine
end

section
/-! A reset edge from any state, and runs of any length from a state of the invariant
(spec/70_reset_and_hazards.md R170, R171, R177). -/

namespace Sys2Proof.Machine

/-- A reset edge answers the reset of the state, with the edge taken from the input (R170). -/
theorem step_reset_edge {s : State} {p : PortSample} {rest : List PortSample} (hin : s.inputs = p :: rest)
    (hrst : p.rst = true) : step s = .next ({ s with inputs := rest } : State).applyReset := by
  have hevent : s.takeEvent = (.reset, { s with inputs := rest }) := by
    rw [State.takeEvent_cons hin, portEvent_eq_reset.mpr hrst]
  exact step_next.mpr (.inr (.inl (by rw [hevent]; exact ⟨rfl, rfl⟩)))

/-- Settles O4: a reset writes every register, and leaves what the host drives later. -/
theorem resetEdgeGivesResetRegisters : Obligations.ResetEdgeGivesResetRegisters := by
  intro s p rest hin hrst
  exact ⟨_, step_reset_edge hin hrst, rfl, rfl, rfl, rfl, rfl⟩

/-- Every step from a state of the invariant answers a next state: of the four kinds of a step a command alone can stop,
and under the invariant none does (O39). -/
theorem exists_step_next {s : State} (hs : CoreInv s) : ∃ t, step s = .next t := by
  cases hevent : s.takeEvent.1 with
  | idle => exact ⟨_, step_next.mpr (.inl ⟨hevent, rfl⟩)⟩
  | reset => exact ⟨_, step_next.mpr (.inr (.inl ⟨hevent, rfl⟩))⟩
  | accept w =>
    cases hdec : decode w with
    | command i =>
      obtain ⟨-, hnext⟩ := onlyALoadWithoutValueStops i s.takeEvent.2
      obtain ⟨t, hexec⟩ := hnext (coreInv_takeEvent_snd hs)
      exact ⟨t, step_next.mpr (.inr (.inr (.inl ⟨w, i, hevent, hdec, hexec⟩)))⟩
    | illegal why => exact ⟨_, step_next.mpr (.inr (.inr (.inr ⟨w, why, hevent, hdec, rfl⟩)))⟩

/-- Settles O50, by induction on the number of steps: the first step answers a state of the invariant (O49), from which
the rest of the run answers. -/
theorem runsNeverStop : Obligations.RunsNeverStop := by
  intro n
  induction n with
  | zero => exact fun s hs => ⟨s, rfl, hs⟩
  | succ n ih =>
    intro s hs
    obtain ⟨u, hstep⟩ := exists_step_next hs
    obtain ⟨t, hrun, ht⟩ := ih u (stepKeepsInvariant s u hs hstep)
    exact ⟨t, run_succ_next.mpr ⟨u, hstep, hrun⟩, ht⟩

end Sys2Proof.Machine
end
